-- ==== Sys2Proof/Word.lean ====
section
/-! DEFINITION. The word types of the KECCAK256-ENGINE (spec 00_scope.md rules R6, R9): a 64-bit lane, a byte, and the
16-bit command and response words of 30_encoding.md. Bit 0 is the least significant bit of every word (R9, D16). -/

namespace Sys2Proof

/-- A lane: "one 64-bit word of the 25-word (5×5) permutation state" (R6 `W`, R15). -/
abbrev Lane := BitVec 64

/-- A byte: 8 bits, unsigned (R9). -/
abbrev Byte := BitVec 8

/-- A command word `CMD[15:0]` (R41, R42). -/
abbrev CommandWord := BitVec 16

/-- A response word `RSP[15:0]` (R43). -/
abbrev ResponseWord := BitVec 16

end Sys2Proof
end

