-- ==== Sys2Proof/Config.lean ====
section
/-! DEFINITION. The parameters of 00_scope.md rule R6. All but two are constants of the engine.

The two that R6 leaves OPEN are no constants here. `N_ENGINES` is the argument `n` of `Machine.Platform n`
(Machine/Platform.lean), and `HOST_INDEX_WIDTH` is the argument `w` of `Machine.hostKeccak256AtWidth`
(Machine/HostOps.lean); statements quantify over them (D19, D21).

The types of Machine/State.lean spell 136, 32 and 24 as numerals, so that arithmetic on indices is plain; the tests
show that they are the constants below. The engine has no free value: the spec leaves no result of a command open. -/

namespace Sys2Proof.Config

/-- R6 `W`: the lane width in bits. -/
abbrev laneWidth : Nat := 64

/-- R6 `NLANES`: the lane count. -/
abbrev laneCount : Nat := 25

/-- R6 `B`: the state width in bits. -/
abbrev stateWidth : Nat := 1600

/-- R6 `NR`: the rounds of one permutation. -/
abbrev roundCount : Nat := 24

/-- R6 `RATE`: the bytes of one block. -/
abbrev rate : Nat := 136

/-- R6 `RATE_LANES`: the lanes a block is XORed into. -/
abbrev rateLanes : Nat := 17

/-- R6 `CAP`: the bytes of the capacity. -/
abbrev capacity : Nat := 64

/-- R6 `DIGEST_BYTES`: the bytes of a digest. -/
abbrev digestBytes : Nat := 32

/-- R6 `PAD_FIRST`: the original Keccak padding byte, not SHA-3's `0x06` (R2, R112). -/
abbrev padFirst : Byte := 0x01

/-- R6 `PAD_LAST`. -/
abbrev padLast : Byte := 0x80

end Sys2Proof.Config
end

