-- ==== Sys2Proof/Syntax.lean ====
section
/-! DEFINITION. The commands of the engine: one constructor per row of spec/opcode_table.json (30_encoding.md rule R45).
An operand is held as the whole byte `IMM8` (R44); WellFormed.lean says which bytes the encoding admits. -/

namespace Sys2Proof

/-- The five engine commands. The host-level operations UPDATE, DIGEST and KECCAK256 "are not engine commands and have
no encoding" (R52); they are in Machine/HostOps.lean. -/
inductive Instr where
  /-- INIT, `0x0100` (R74): start a fresh hash context. -/
  | init
  /-- UPDATE_BYTE, `0x02bb` (R75): append the message byte `b`. -/
  | updateByte (b : Byte)
  /-- FINALIZE, `0x0300` (R76): pad, absorb the last block and freeze the digest. -/
  | finalize
  /-- READ_DIGEST, `0x04jj` (R77): return digest byte `j`. -/
  | readDigest (j : Byte)
  /-- READ_STATUS, `0x050s` (R78): return the FSM code (`sel` 0) or CURSOR (`sel` 1). -/
  | readStatus (sel : Byte)
  deriving DecidableEq, Repr

end Sys2Proof
end

