-- ==== Sys2Proof/WellFormed.lean ====
section
/-! DEFINITION. Which commands the encoding admits (30_encoding.md rules R44, R45). -/

namespace Sys2Proof

/-- `j` is legal in `0..31` and `sel` in `0..1`; every message byte is legal; INIT and FINALIZE have no operand
(R44, R45). -/
def Instr.wellFormed : Instr → Bool
  | .init => true
  | .updateByte _ => true
  | .finalize => true
  | .readDigest j => decide (j < 32)
  | .readStatus sel => decide (sel < 2)

end Sys2Proof
end

