-- ==== Sys2Proof/Decode.lean ====
section
/-! DEFINITION. Decoding of a 16-bit command word, total on all 65,536 words (30_encoding.md rules R41 to R50), and the
encoder written from the same rows. An illegal word is no refusal of the model: it is a `Decoded.illegal` that names
which rule makes it illegal, and the engine answers it with ERR_ILLEGAL (R79, R91). -/

namespace Sys2Proof

/-- `OP = CMD[15:8]` (R41). -/
def opOf (w : CommandWord) : Byte := w.extractLsb' 8 8

/-- `IMM8 = CMD[7:0]` (R41), unsigned, "never sign-extended, scaled or shifted" (R44). -/
def imm8Of (w : CommandWord) : Byte := w.extractLsb' 0 8

/-- The word with opcode `op` and operand `imm` (R41). -/
def commandWord (op imm : Byte) : CommandWord := op ++ imm

/-- Why a word encodes no command: the three causes R91 lists, the second and third kept apart by command. -/
inductive IllegalReason where
  /-- A reserved `OP`: `0x00`, or `0x06..0xFF` (R48). -/
  | reservedOpcode
  /-- INIT or FINALIZE with a non-zero operand (R46). -/
  | operandNotZero
  /-- READ_DIGEST with `IMM8 >= 0x20` (R47). -/
  | digestIndexTooLarge
  /-- READ_STATUS with `IMM8 >= 0x02` (R47). -/
  | selectorTooLarge
  deriving DecidableEq, Repr

/-- What a command word decodes to: a command, or R49's `ILLEGAL` with its reason. -/
inductive Decoded where
  | command (i : Instr)
  | illegal (why : IllegalReason)
  deriving DecidableEq, Repr

/-- Whether the word is one of R50's legal words. -/
def Decoded.legal : Decoded → Bool
  | .command _ => true
  | .illegal _ => false

/-- R49 `Decode(CMD[15:0])`: legality is a property of the word alone. -/
def decode (w : CommandWord) : Decoded :=
  if opOf w = 0x01 then
    if imm8Of w = 0x00 then .command .init else .illegal .operandNotZero
  else if opOf w = 0x02 then .command (.updateByte (imm8Of w))
  else if opOf w = 0x03 then
    if imm8Of w = 0x00 then .command .finalize else .illegal .operandNotZero
  else if opOf w = 0x04 then
    if imm8Of w < 0x20 then .command (.readDigest (imm8Of w)) else .illegal .digestIndexTooLarge
  else if opOf w = 0x05 then
    if imm8Of w < 0x02 then .command (.readStatus (imm8Of w)) else .illegal .selectorTooLarge
  else .illegal .reservedOpcode

/-- A row of the opcode map of R45: a word belongs to the row if its bits under the mask are the match bits. -/
structure OpcodeRow where
  /-- The `match` column. -/
  pattern : CommandWord
  /-- The `mask` column. -/
  mask : CommandWord
  deriving DecidableEq, Repr

/-- The five rows of R45, in its order: INIT, UPDATE_BYTE, FINALIZE, READ_DIGEST, READ_STATUS. -/
def opcodeMap : List OpcodeRow :=
  [⟨0x0100, 0xFFFF⟩, ⟨0x0200, 0xFF00⟩, ⟨0x0300, 0xFFFF⟩, ⟨0x0400, 0xFFE0⟩, ⟨0x0500, 0xFFFE⟩]

/-- `(CMD & mask) == match` (R45). -/
def OpcodeRow.admits (r : OpcodeRow) (w : CommandWord) : Bool := (w &&& r.mask) == r.pattern

/-- The number of rows of R45 that a word matches. -/
def matchingRows (w : CommandWord) : Nat := opcodeMap.countP (·.admits w)

/-- The opcode of a command (R45, column OP). -/
def Instr.opcode : Instr → Byte
  | .init => 0x01
  | .updateByte _ => 0x02
  | .finalize => 0x03
  | .readDigest _ => 0x04
  | .readStatus _ => 0x05

/-- The operand byte of a command; INIT and FINALIZE carry `0x00` (R44). -/
def Instr.operand : Instr → Byte
  | .init => 0x00
  | .updateByte b => b
  | .finalize => 0x00
  | .readDigest j => j
  | .readStatus sel => sel

/-- The 16-bit word of a command (R45, R51). -/
def encode (i : Instr) : CommandWord := commandWord i.opcode i.operand

/-- The decoder as the host asks for it. A command is one 16-bit word, so the word is `w`'s low `nbits` bits (all
sixteen of them for every row of the table), with zeros above. -/
def decodeTableWord (nbits w : Nat) : Option Instr :=
  match decode (BitVec.ofNat 16 (w % 2 ^ nbits)) with
  | .command i => some i
  | .illegal _ => none

end Sys2Proof
end

