-- ==== Sys2Proof/Machine/State.lean ====
section
/-! DEFINITION. The state of one engine (10_state.md), as plain data, with the command port through which a host reaches
it (42_commands.md rule R73), and the reasons a step or a host operation can stop.

The spec gives the engine no program counter (R21), no flags but FSM (R22), no registers a command can name (R16), no
address space and no memory (R29), no interrupt, trap, privilege, timer, debug or power state (R95 to R103): none of
these is a field. The constant tables RC and RHO are constants (R23, R27), in Machine/Permutation.lean. -/

namespace Sys2Proof.Machine

/-- Five lanes with the same `y` (R11: "a row is a fixed `y` with `x` varying"). -/
structure Row where
  x0 : Lane
  x1 : Lane
  x2 : Lane
  x3 : Lane
  x4 : Lane
  deriving DecidableEq, Repr

/-- The lane array `A[0..24]` of R15, "conceptually a 5×5 matrix of lanes": lane `A[x + 5*y]` is `x` of row `y`
(R11), so there are exactly 25 lanes. Read and written through the accessors of Machine/Ops.lean. -/
structure LaneArray where
  y0 : Row
  y1 : Row
  y2 : Row
  y3 : Row
  y4 : Row
  deriving DecidableEq, Repr

/-- A block of `RATE` = 136 bytes: the type of BUF (R17) and of ABSORB_BLOCK's argument, so that no other length can be
written down (R67, 93_implementation_defined.md U5). -/
abbrev Block := Vector Byte 136

/-- The lifecycle states of R20. Code 3 is never held: a type of three constructors cannot hold it
(93_implementation_defined.md U7; DESIGN CHOICE, safe: notes/assumptions/4.md). The codes are in Machine/Flags.lean. -/
inductive Fsm where
  | created
  | absorbing
  | finalized
  deriving DecidableEq, Repr

/-- The response codes the engine returns (R43). Code 3 is reserved and never returned. -/
inductive RspCode where
  /-- OK: the command completed. -/
  | ok
  /-- ERR_STATE: StateError (R90). -/
  | errState
  /-- ERR_ILLEGAL: IllegalCommand (R91). -/
  | errIllegal
  deriving DecidableEq, Repr

/-- A response `{CODE, DATA}` (R43). -/
structure Response where
  code : RspCode
  data : Byte
  deriving DecidableEq, Repr

/-- What a host can do to an engine (R73): present a command word, or reset it between two commands. A reset inside a
command cannot be written down (R107, 93_implementation_defined.md U10). -/
inductive HostEvent where
  | command (w : CommandWord)
  | reset
  deriving DecidableEq, Repr

/-- The hash context: "one Permutation State, one Absorption Buffer and its cursor", with its lifecycle state. One
engine holds exactly one (R14). These four are all of the architectural state of R28. -/
structure Context where
  /-- `A[0..24]`, 25 x 64 bits (R15). -/
  lanes : LaneArray
  /-- `BUF[0..135]`, 136 x 8 bits (R17). -/
  buf : Block
  /-- `CURSOR`, the number of bytes buffered, legal in `0..135` (R18); its 8-bit value is `Context.cursorByte`
  (DESIGN CHOICE, safe: notes/assumptions/3.md). -/
  cursor : Fin 136
  /-- `FSM` (R20). -/
  fsm : Fsm
  deriving DecidableEq, Repr

/-- The row of five zero lanes. -/
def Row.zero : Row := ⟨0, 0, 0, 0, 0⟩

/-- The all-zero lane array. -/
def LaneArray.zero : LaneArray := ⟨.zero, .zero, .zero, .zero, .zero⟩

/-- The all-zero block. -/
def Block.zero : Block := Vector.replicate 136 0

/-- One engine and its command port. -/
structure State where
  /-- The hash context the engine holds (R14, R28). -/
  ctx : Context
  /-- The response port: the response of the last command, `none` if no command has run since reset (R43, R73, R105;
  DESIGN CHOICE, unsafe: notes/assumptions/2.md). -/
  response : Option Response
  /-- The command port: what the hosts have issued to this engine and it has not taken yet, in issue order (R21, R37).
  The engine takes the next one only when the response of the one before is there (R73; DESIGN CHOICE, safe:
  notes/assumptions/1.md). -/
  inbox : List HostEvent
  deriving DecidableEq, Repr

/-- The context after reset (R28, R105). -/
def Context.reset : Context where
  lanes := .zero
  buf := .zero
  cursor := 0
  fsm := .created

/-- The engine after reset: the context of R28, no response ("Reset returns no response", R105), and no command issued
(the host supplies them all, R21). -/
def State.reset : State where
  ctx := .reset
  response := none
  inbox := []

/-- The reasons a run stops. No step of the engine raises one ("No command can hang", R114); the host operations do. -/
inductive Fault where
  /-- `HostProtocol` (R104): raised by the host operation KECCAK256 when a command of its expansion gets a response
  other than OK (R84), and by any host operation whose command gets no response. Safe: no digest is produced. -/
  | hostProtocol
  /-- `InByte(k)` outside the host's input array, where R30 does not define it: raised by the host operation KECCAK256.
  Its range check makes this unreachable. Safe: no byte is made up (DESIGN CHOICE, notes/assumptions/9.md). -/
  | inputOutOfRange
  deriving DecidableEq, Repr

/-- The reasons the model gives something no meaning. No step of the engine raises one. -/
inductive Refusal where
  /-- Raised by `exec` for an instruction without a meaning; there is none such. Safe. -/
  | notModelled (mnemonic : String)
  /-- `ReservedFsmCode` (R104): raised where a host reads an FSM code of 3, which the engine never holds (U7). Safe. -/
  | reservedFsmCode
  /-- A response word with CODE 3 or with a bit of `RSP[15:10]` set: raised where a host receives it; the engine never
  returns one (R43, U8). Safe. -/
  | reservedResponse
  /-- `SharedContext` (R104): raised where a digest is claimed for a host that did not own the engine exclusively from
  INIT on (R38, U1). Safe. -/
  | sharedContext
  deriving DecidableEq, Repr

end Sys2Proof.Machine
end

