-- ==== Sys2Proof/Machine/Ops.lean ====
section
/-! DEFINITION. The named operations of the engine: the word primitives of 00_scope.md rules R10 and R12, the accessors
of the lane array (R11, R15), BUF as a block (R17), and the ways a command ends: a response, or a raised error
(60_exceptions.md rule R93). Lanes, BUF, CURSOR, FSM and the response port are read and written through these. -/

namespace Sys2Proof.Machine

/-! ## Words -/

/-- `ROL64(v, n)`, for `0 <= n <= 63` (R10; the direction is PRESUMED, notes/assumptions/6.md). -/
def rol64 (v : Lane) (n : Nat) : Lane := if n = 0 then v else (v <<< n) ||| (v >>> (64 - n))

/-- `LE64(b0, ..., b7)` (R12): eight bytes as a little-endian lane. -/
def le64 (b0 b1 b2 b3 b4 b5 b6 b7 : Byte) : Lane :=
  b0.setWidth 64 ||| (b1.setWidth 64 <<< 8) ||| (b2.setWidth 64 <<< 16) ||| (b3.setWidth 64 <<< 24) |||
    (b4.setWidth 64 <<< 32) ||| (b5.setWidth 64 <<< 40) ||| (b6.setWidth 64 <<< 48) ||| (b7.setWidth 64 <<< 56)

/-- `BYTE(v, k)`, for `k` in `0..7` (R12): `v[8k+7 : 8k]`, as `(v >> (8 * k)) & 0xFF` (R68). -/
def byteOf (v : Lane) (k : Nat) : Byte := ((v >>> (8 * k)) &&& 0xFF).setWidth 8

/-- The vector `f 0, ..., f (n - 1)`. -/
def tabulate {α : Type} (n : Nat) (f : Nat → α) : Vector α n := ⟨((List.range n).map f).toArray, by simp⟩

/-! ## The lane array -/

/-- The lane at `x` of a row. -/
def Row.get (r : Row) : Fin 5 → Lane
  | 0 => r.x0
  | 1 => r.x1
  | 2 => r.x2
  | 3 => r.x3
  | 4 => r.x4

/-- The row of the lanes `f x`. -/
def Row.ofX (f : Fin 5 → Lane) : Row := ⟨f 0, f 1, f 2, f 3, f 4⟩

/-- The row with the lane at `x` replaced. -/
def Row.set (r : Row) (x : Fin 5) (v : Lane) : Row := .ofX fun x' => if x' = x then v else r.get x'

/-- The row at `y`. -/
def LaneArray.row (A : LaneArray) : Fin 5 → Row
  | 0 => A.y0
  | 1 => A.y1
  | 2 => A.y2
  | 3 => A.y3
  | 4 => A.y4

/-- The array of the rows `f y`. -/
def LaneArray.ofRows (f : Fin 5 → Row) : LaneArray := ⟨f 0, f 1, f 2, f 3, f 4⟩

/-- `A[x, y]` (R11). -/
def LaneArray.lane (A : LaneArray) (x y : Fin 5) : Lane := (A.row y).get x

/-- The array of the lanes `f x y`, all computed from the old state (R13, R64). -/
def LaneArray.ofXY (f : Fin 5 → Fin 5 → Lane) : LaneArray := .ofRows fun y => .ofX fun x => f x y

/-- `A[x, y] <- v`. -/
def LaneArray.setLane (A : LaneArray) (x y : Fin 5) (v : Lane) : LaneArray :=
  .ofRows fun y' => if y' = y then (A.row y').set x v else A.row y'

/-- The index `x + 5*y` of the lane at `(x, y)` (R11; from general knowledge, 93_implementation_defined.md G3:
PRESUMED, notes/assumptions/6.md). -/
def laneIndex (x y : Fin 5) : Fin 25 := ⟨x.val + 5 * y.val, by omega⟩

/-- The `x` of lane index `i`. -/
def xOfIndex (i : Fin 25) : Fin 5 := ⟨i.val % 5, by omega⟩

/-- The `y` of lane index `i`. -/
def yOfIndex (i : Fin 25) : Fin 5 := ⟨i.val / 5, by omega⟩

/-- `A[i]`, for `i` in `0..24` (R11, R15). -/
def LaneArray.at (A : LaneArray) (i : Fin 25) : Lane := A.lane (xOfIndex i) (yOfIndex i)

/-- State byte `j`, for `j` in `0..199`: `BYTE(A[j div 8], j mod 8)` (R12). -/
def LaneArray.stateByte (A : LaneArray) (j : Fin 200) : Byte := byteOf (A.at ⟨j.val / 8, by omega⟩) (j.val % 8)

/-! ## Blocks -/

/-- Lane `i` of a block, `i` in `0..16`: `LE64(block[8i], ..., block[8i+7])` (R31). -/
def Block.lane (blk : Block) (i : Fin 17) : Lane :=
  le64 (blk[8 * i.val]'(by omega)) (blk[8 * i.val + 1]'(by omega)) (blk[8 * i.val + 2]'(by omega))
    (blk[8 * i.val + 3]'(by omega)) (blk[8 * i.val + 4]'(by omega)) (blk[8 * i.val + 5]'(by omega))
    (blk[8 * i.val + 6]'(by omega)) (blk[8 * i.val + 7]'(by omega))

/-- The first 136 bytes of `l`, with zeros after its end if it is shorter: `T ++ zeros(136 - |T|)` (R69). -/
def Block.ofBytes (l : List Byte) : Block := tabulate 136 fun k => l.getD k 0

/-! ## How a command ends -/

/-- The context INIT creates (R74): `init_state` of R80. It differs from the reset context in FSM alone (R106). -/
def Context.fresh : Context where
  lanes := .zero
  buf := .zero
  cursor := 0
  fsm := .absorbing

/-- `respond(code, data)` of a command that leaves the context `ctx`: exactly one response, at the response port (R13,
R43, R73). What the hosts have issued and the engine has not taken stays as it is. -/
def State.respond (s : State) (ctx : Context) (r : Response) : Host.Outcome State Fault Refusal :=
  .next { s with ctx := ctx, response := some r }

/-- Raising an error ends a command: the response carries its code, DATA is `0x00`, and no state is written (R13, R93).
This engine's whole exception mechanism: "No register saves anything, and no mode, mask or vector changes", and there
is no return, since the next command sees the unchanged state (R93, R96). -/
def State.raiseError (s : State) (code : RspCode) : Host.Outcome State Fault Refusal :=
  s.respond s.ctx ⟨code, 0x00⟩

/-- `raise StateError()` (R90). -/
def State.raiseStateError (s : State) : Host.Outcome State Fault Refusal := s.raiseError .errState

/-- `raise IllegalCommand()` (R91). -/
def State.raiseIllegalCommand (s : State) : Host.Outcome State Fault Refusal := s.raiseError .errIllegal

/-- The lifecycle check of R90: `if FSM != need: raise StateError()`, and otherwise the command's body. -/
def State.requireFsm (s : State) (need : Fsm) (body : Host.Outcome State Fault Refusal) :
    Host.Outcome State Fault Refusal :=
  if s.ctx.fsm = need then body else s.raiseStateError

/-! ## The port -/

/-- The state with the first event of the inbox taken. -/
def State.taken (s : State) (rest : List HostEvent) : State := { s with inbox := rest }

/-- Reset, an event between two commands (R105): the context of R28 and no response. What the hosts have issued and
the engine has not taken is the hosts' own (R27) and stays (DESIGN CHOICE, safe: notes/assumptions/11.md). -/
def State.hardwareReset (s : State) : State := { s with ctx := .reset, response := none }

/-- The state with the command `w` presented at the port, before everything else issued (R73). -/
def State.present (s : State) (w : CommandWord) : State := { s with inbox := .command w :: s.inbox }

end Sys2Proof.Machine
end

