-- ==== Sys2Proof/Machine/Operands.lean ====
section
/-! DEFINITION. The operand forms of the commands (30_encoding.md rule R44). Every operand is the byte `IMM8`,
zero-extended; there is no addressing mode and no effective address (R86). -/

namespace Sys2Proof.Machine

/-- The digest byte index `j = zext(IMM8)`, "legal in `0..31`" (R44); `none` is an illegal operand (R47). -/
def digestIndex (imm : Byte) : Option (Fin 32) := if h : imm.toNat < 32 then some ⟨imm.toNat, h⟩ else none

/-- The two fields of the register view of R24. -/
inductive StatusField where
  /-- Selector 0, `STATUS.FSM`. -/
  | fsm
  /-- Selector 1, `STATUS.CURSOR`. -/
  | cursor
  deriving DecidableEq, Repr

/-- The register selector `sel = zext(IMM8)`, "legal in `0..1`" (R44); `none` is an illegal operand (R47). -/
def statusSelector (imm : Byte) : Option StatusField :=
  if imm = 0 then some .fsm else if imm = 1 then some .cursor else none

end Sys2Proof.Machine
end

