-- ==== Sys2Proof/Machine/Flags.lean ====
section
/-! DEFINITION. The codes software sees: the FSM code, the only flag-like state of the engine (10_state.md rules R20,
R22), CURSOR's byte (R18, R24), and the response word (30_encoding.md rule R43). -/

namespace Sys2Proof.Machine

/-- The 2-bit FSM code (R20). -/
def Fsm.code : Fsm → BitVec 2
  | .created => 0
  | .absorbing => 1
  | .finalized => 2

/-- The lifecycle state a 2-bit code stands for. Code 3 is "never held; a model that meets it refuses" (R20, U7). -/
def Fsm.ofCode (c : BitVec 2) : Host.Outcome Fsm Fault Refusal :=
  if c = 0 then .next .created
  else if c = 1 then .next .absorbing
  else if c = 2 then .next .finalized
  else .refused .reservedFsmCode

/-- CURSOR as its 8-bit register holds it (R18, D31). -/
def Context.cursorByte (c : Context) : Byte := BitVec.ofNat 8 c.cursor.val

/-- STATUS.FSM: the FSM code in `DATA[1:0]`, with `DATA[7:2] = 0` (R24, R78). -/
def Context.fsmByte (c : Context) : Byte := c.fsm.code.setWidth 8

/-- The field of the register view READ_STATUS returns (R24, R78). -/
def Context.statusByte (c : Context) : StatusField → Byte
  | .fsm => c.fsmByte
  | .cursor => c.cursorByte

/-- The 2-bit response code (R43). -/
def RspCode.code : RspCode → BitVec 2
  | .ok => 0
  | .errState => 1
  | .errIllegal => 2

/-- `RSP[15:0]`: `RSP[15:10] = 0`, `RSP[9:8] = CODE`, `RSP[7:0] = DATA` (R43). -/
def Response.word (r : Response) : ResponseWord := (0 : BitVec 6) ++ r.code.code ++ r.data

/-- The response a host reads from a response word. CODE 3 is "never returned", and a host that receives it refuses, as
it does a word with a bit of `RSP[15:10]` set (R43, U8; DESIGN CHOICE, safe: notes/assumptions/12.md). -/
def Response.ofWord (w : ResponseWord) : Host.Outcome Response Fault Refusal :=
  if w.extractLsb' 10 6 = 0 then
    if w.extractLsb' 8 2 = 0 then .next ⟨.ok, w.extractLsb' 0 8⟩
    else if w.extractLsb' 8 2 = 1 then .next ⟨.errState, w.extractLsb' 0 8⟩
    else if w.extractLsb' 8 2 = 2 then .next ⟨.errIllegal, w.extractLsb' 0 8⟩
    else .refused .reservedResponse
  else .refused .reservedResponse

end Sys2Proof.Machine
end

