-- ==== Sys2Proof/Machine/Permutation.lean ====
section
/-! DEFINITION. The Keccak-f[1600] permutation (40_permutation.md rules R53 to R61): the five round steps, the round, the
24 rounds and their constant tables, with the generators from which the spec regenerates the tables. Index arithmetic
on `x` and `y` is in `Fin 5`, so it is modulo 5 (R11). Every step is the pure function of its rule (R64). -/

namespace Sys2Proof.Machine

/-! ## THETA -/

/-- The column parities `C[x]` of THETA, all from the input state (R55; G5: PRESUMED, notes/assumptions/6.md). -/
def columnParity (A : LaneArray) : Row :=
  .ofX fun x => A.lane x 0 ^^^ A.lane x 1 ^^^ A.lane x 2 ^^^ A.lane x 3 ^^^ A.lane x 4

/-- `D[x] = C[(x + 4) mod 5] ^ ROL64(C[(x + 1) mod 5], 1)` (R55). -/
def thetaEffect (C : Row) : Row := .ofX fun x => C.get (x + 4) ^^^ rol64 (C.get (x + 1)) 1

/-- Every lane XORed with the entry of its column. -/
def xorColumns (A : LaneArray) (D : Row) : LaneArray := .ofXY fun x y => A.lane x y ^^^ D.get x

/-- THETA (R55). -/
def theta (A : LaneArray) : LaneArray := xorColumns A (thetaEffect (columnParity A))

/-! ## RHO -/

/-- The rotation offsets by lane index (R56; from general knowledge, 93_implementation_defined.md G1: PRESUMED,
notes/assumptions/6.md). -/
def rhoTable : Vector (Fin 64) 25 :=
  #v[0, 1, 62, 28, 27, 36, 44, 6, 55, 20, 3, 10, 43, 25, 39, 41, 45, 15, 21, 8, 18, 2, 61, 56, 14]

/-- `RHO[x][y]` (R56). -/
def rhoOffset (x y : Fin 5) : Nat := (rhoTable[(laneIndex x y).val]).val

/-- The position the generator of R56 is at in turn `t`, from `(1, 0)`. -/
def rhoOrbit : Nat → Fin 5 × Fin 5
  | 0 => (1, 0)
  | t + 1 => ((rhoOrbit t).2, 2 * (rhoOrbit t).1 + 3 * (rhoOrbit t).2)

/-- The offset the generator of R56 writes in turn `t`. -/
def rhoStep (t : Nat) : Nat := ((t + 1) * (t + 2) / 2) % 64

/-- `RHO[x][y]` as the generator of R56 leaves it. -/
def rhoGenerated (x y : Fin 5) : Nat :=
  match (List.range 24).find? fun t => rhoOrbit t = (x, y) with
  | some t => rhoStep t
  | none => 0

/-- RHO (R57). -/
def rho (A : LaneArray) : LaneArray := .ofXY fun x y => rol64 (A.lane x y) (rhoOffset x y)

/-! ## PI -/

/-- PI (R58): `A'[x,y] = A[(x + 3*y) mod 5, x]`. -/
def pi (A : LaneArray) : LaneArray := .ofXY fun x y => A.lane (x + 3 * y) x

/-! ## CHI -/

/-- CHI (R60): all five outputs of a row from that row's input lanes (G5: PRESUMED, notes/assumptions/6.md). -/
def chi (A : LaneArray) : LaneArray :=
  .ofXY fun x y => A.lane x y ^^^ (~~~(A.lane (x + 1) y) &&& A.lane (x + 2) y)

/-! ## IOTA -/

/-- The printed table of R59, row by row: row `k` holds `RC[k]` and, in its right half, `RC[k + 12]` (from general
knowledge, 93_implementation_defined.md G2: PRESUMED, notes/assumptions/6.md). -/
def rcTable : Vector (Lane × Lane) 12 :=
  #v[(0x0000000000000001, 0x000000008000808B),
     (0x0000000000008082, 0x800000000000008B),
     (0x800000000000808A, 0x8000000000008089),
     (0x8000000080008000, 0x8000000000008003),
     (0x000000000000808B, 0x8000000000008002),
     (0x0000000080000001, 0x8000000000000080),
     (0x8000000080008081, 0x000000000000800A),
     (0x8000000000008009, 0x800000008000000A),
     (0x000000000000008A, 0x8000000080008081),
     (0x0000000000000088, 0x8000000000008080),
     (0x0000000080008009, 0x0000000080000001),
     (0x000000008000000A, 0x8000000080008008)]

/-- `RC[ir]` (R59): from the left half of the printed table for `ir` in `0..11`, from its right half for `12..23`. -/
def roundConstant (ir : Fin 24) : Lane :=
  if h : ir.val < 12 then (rcTable[ir.val]).1 else (rcTable[ir.val - 12]'(by omega)).2

/-- One turn of the LFSR of R59, with feedback polynomial `x^8 + x^6 + x^5 + x^4 + 1`; bit `k` is `R[k]`. -/
def lfsrStep (r : BitVec 8) : BitVec 8 := if r.getLsbD 7 then (r <<< 1) ^^^ 0x71 else r <<< 1

/-- The LFSR after `n` turns from `R = [1,0,0,0,0,0,0,0]` (R59). -/
def lfsr : Nat → BitVec 8
  | 0 => 1
  | n + 1 => lfsrStep (lfsr n)

/-- `rc(t)` (R59). -/
def rcBit (t : Nat) : Bool := (lfsr (t % 255)).getLsbD 0

/-- `RC[ir]` as the generator of R59 gives it: the OR over `j` in `0..6` of `rc(j + 7*ir) << (2^j - 1)`. -/
def rcGenerated (ir : Nat) : Lane :=
  (List.range 7).foldl (fun v j => v ||| (BitVec.ofBool (rcBit (j + 7 * ir))).setWidth 64 <<< (2 ^ j - 1)) 0

/-- IOTA (R61). -/
def iota (A : LaneArray) (ir : Fin 24) : LaneArray :=
  { A with y0 := { A.y0 with x0 := A.y0.x0 ^^^ roundConstant ir } }

/-! ## The round and the permutation -/

/-- ROUND (R54). -/
def keccakRound (A : LaneArray) (ir : Fin 24) : LaneArray := iota (chi (pi (rho (theta A)))) ir

/-- The round indices `0, 1, ..., 23`, in increasing order (R53; from general knowledge, G6: PRESUMED,
notes/assumptions/6.md). -/
def roundIndices : List (Fin 24) :=
  [0, 1, 2, 3, 4, 5, 6, 7, 8, 9, 10, 11, 12, 13, 14, 15, 16, 17, 18, 19, 20, 21, 22, 23]

/-- KECCAK_F (R53): "exactly 24 rounds". -/
def keccakF (A : LaneArray) : LaneArray := roundIndices.foldl keccakRound A

end Sys2Proof.Machine
end

