-- ==== Sys2Proof/Machine/Sponge.lean ====
section
/-! DEFINITION. Padding, absorption and squeezing (41_sponge.md rules R66 to R68), and the message-level function that
the engine computes (R69). -/

namespace Sys2Proof.Machine

/-- PAD (R66): `0x01` after the buffered bytes, `0x80` into the last byte; both XORed, so that 135 buffered bytes give
a last byte of `0x81`. -/
def pad (buf : Block) (cursor : Fin 136) : Block :=
  let p := buf.set cursor.val (buf[cursor.val] ^^^ Config.padFirst)
  p.set 135 (p[135] ^^^ Config.padLast)

/-- The XOR of ABSORB_BLOCK (R67): lanes `0..16` with the block's lanes; "lanes beyond `rate/8` untouched". -/
def xorBlock (A : LaneArray) (blk : Block) : LaneArray :=
  .ofXY fun x y =>
    if h : (laneIndex x y).val < 17 then A.lane x y ^^^ Block.lane blk ⟨(laneIndex x y).val, h⟩ else A.lane x y

/-- ABSORB_BLOCK (R67). -/
def absorbBlock (A : LaneArray) (blk : Block) : LaneArray := keccakF (xorBlock A blk)

/-- Digest byte `j`, `j` in `0..31`: `BYTE(A[j div 8], j mod 8)` (R32, R68). -/
def digestByte (A : LaneArray) (j : Fin 32) : Byte := byteOf (A.at ⟨j.val / 8, by omega⟩) (j.val % 8)

/-- SQUEEZE (R68): the 32 digest bytes; no permutation runs. -/
def squeeze (A : LaneArray) : Vector Byte 32 := tabulate 32 fun j => digestByte A (Fin.ofNat 32 j)

/-! ## The message-level function -/

/-- Block `M_i` of a message: its bytes `136*i` to `136*i + 135` (R69). -/
def messageBlock (M : List Byte) (i : Nat) : Block := Block.ofBytes (M.drop (136 * i))

/-- The lanes after the `k = L div 136` full blocks of a message (R69). -/
def absorbFull (M : List Byte) : LaneArray :=
  (List.range (M.length / 136)).foldl (fun A i => absorbBlock A (messageBlock M i)) .zero

/-- The `L mod 136` bytes after a message's full blocks (R69). -/
def messageTail (M : List Byte) : List Byte := M.drop (136 * (M.length / 136))

/-- `L mod 136`, the length of the tail. -/
def tailLength (M : List Byte) : Fin 136 := ⟨M.length % 136, by omega⟩

/-- The lanes after the padded last block of a message (R69). -/
def absorbMessage (M : List Byte) : LaneArray :=
  absorbBlock (absorbFull M) (pad (Block.ofBytes (messageTail M)) (tailLength M))

/-- `KECCAK256(M)` (R69), always 32 bytes. -/
def keccak256 (M : List Byte) : Vector Byte 32 := squeeze (absorbMessage M)

end Sys2Proof.Machine
end

