-- ==== Sys2Proof/Machine/Commands.lean ====
section
/-! DEFINITION. The meanings of the five commands and the illegal-word outcome (42_commands.md rules R74 to R79), one
definition each. None ever faults or refuses: a lifecycle violation is the response ERR_STATE (R90), and an operand the
encoding does not admit is the response ERR_ILLEGAL, decided before FSM is consulted (R47, R94; DEDUCED, safe:
notes/assumptions/5.md). -/

namespace Sys2Proof.Machine

/-- INIT (R74): a fresh hash context in every FSM state. -/
def execInit (s : State) : Host.Outcome State Fault Refusal := s.respond .fresh ⟨.ok, 0x00⟩

/-- BUF with the byte `b` written at CURSOR (R75). -/
def Context.appended (c : Context) (b : Byte) : Block := c.buf.set c.cursor.val b

/-- The context after an accepted UPDATE_BYTE (R75): the 136th byte absorbs the block at once. -/
def Context.update (c : Context) (b : Byte) : Context :=
  if c.cursor = 135 then { c with lanes := absorbBlock c.lanes (c.appended b), buf := .zero, cursor := 0 }
  else { c with buf := c.appended b, cursor := c.cursor + 1 }

/-- UPDATE_BYTE (R75). -/
def execUpdateByte (b : Byte) (s : State) : Host.Outcome State Fault Refusal :=
  s.requireFsm .absorbing (s.respond (s.ctx.update b) ⟨.ok, 0x00⟩)

/-- The context after an accepted FINALIZE (R76). -/
def Context.finalize (c : Context) : Context where
  lanes := absorbBlock c.lanes (pad c.buf c.cursor)
  buf := .zero
  cursor := 0
  fsm := .finalized

/-- FINALIZE (R76). -/
def execFinalize (s : State) : Host.Outcome State Fault Refusal :=
  s.requireFsm .absorbing (s.respond s.ctx.finalize ⟨.ok, 0x00⟩)

/-- READ_DIGEST (R77). -/
def execReadDigest (j : Byte) (s : State) : Host.Outcome State Fault Refusal :=
  match digestIndex j with
  | some k => s.requireFsm .finalized (s.respond s.ctx ⟨.ok, digestByte s.ctx.lanes k⟩)
  | none => s.raiseIllegalCommand

/-- READ_STATUS (R78): legal in every FSM state. -/
def execReadStatus (sel : Byte) (s : State) : Host.Outcome State Fault Refusal :=
  match statusSelector sel with
  | some field => s.respond s.ctx ⟨.ok, s.ctx.statusByte field⟩
  | none => s.raiseIllegalCommand

/-- ILLEGAL (R79): the outcome of any word that encodes no command, in every FSM state. -/
def execIllegal (s : State) : Host.Outcome State Fault Refusal := s.raiseIllegalCommand

end Sys2Proof.Machine
end

