-- ==== Sys2Proof/Machine/Dispatch.lean ====
section
/-! DEFINITION. One arm per constructor of Instr: the meaning of each command. -/

namespace Sys2Proof.Machine

def exec (i : Instr) (s : State) : Host.Outcome State Fault Refusal :=
  match i with
  | .init => Sys2Proof.Machine.execInit s
  | .updateByte b => Sys2Proof.Machine.execUpdateByte b s
  | .finalize => Sys2Proof.Machine.execFinalize s
  | .readDigest j => Sys2Proof.Machine.execReadDigest j s
  | .readStatus sel => Sys2Proof.Machine.execReadStatus sel s

end Sys2Proof.Machine
end

