-- ==== Sys2Proof/Machine/Engine.lean ====
section
/-! DEFINITION. What the engine does with what a host presents (42_commands.md rules R73, R80). -/

namespace Sys2Proof.Machine

/-- One command word: decoded, executed as one atomic step, and answered by exactly one response (R73, R80). Legality
is decided before the lifecycle state is looked at (R94). -/
def executeWord (w : CommandWord) (s : State) : Host.Outcome State Fault Refusal :=
  match decode w with
  | .command i => exec i s
  | .illegal _ => execIllegal s

/-- The next event of the inbox. With nothing issued the engine "is idle and holds all of its state unchanged for as
long as the host waits" (R103). -/
def acceptEvent (s : State) : Host.Outcome State Fault Refusal :=
  match s.inbox with
  | [] => .next s
  | .reset :: rest => .next (s.taken rest).hardwareReset
  | .command w :: rest => executeWord w (s.taken rest)

end Sys2Proof.Machine
end

