-- ==== Sys2Proof/Machine/Step.lean ====
section
/-! DEFINITION. One step of the engine: one host event (R73). The engine has no program counter and fetches nothing; the
"program" is the sequence of commands the host issues (R21), which the inbox holds. -/

namespace Sys2Proof.Machine

/-- One step: the next host event, whole and atomic (R35, R80). -/
def step (s : State) : Host.Outcome State Fault Refusal := acceptEvent s

/-- `s` with the 16-bit word `w` as the command presented next, so that the next step runs exactly it. -/
def State.withFetchWord (s : State) (nbits w : Nat) : State := s.present (BitVec.ofNat 16 (w % 2 ^ nbits))

end Sys2Proof.Machine
end

