-- ==== Sys2Proof/Machine/Assembler.lean ====
section
/-! DEFINITION. The assembly lines of 30_encoding.md rule R51: one command per line, a mnemonic and at most one operand
written as a hexadecimal or decimal byte; comments start with `;`. Text is a list of characters. What R51 leaves open
about the text (blanks, letter case, the number of digits) is the model's choice, notes/assumptions/7.md. -/

namespace Sys2Proof

/-- What a line assembles to. -/
inductive AsmLine where
  /-- Nothing but blanks and a comment. -/
  | empty
  /-- A command's word. -/
  | word (w : CommandWord)
  /-- No line of R51. -/
  | error
  deriving DecidableEq, Repr

/-- A blank between the parts of a line. -/
def isBlank (c : Char) : Bool := c == ' ' || c == '\t' || c == '\r'

/-- The words of a line, split at blanks. -/
def splitBlanks : List Char → List Char → List (List Char)
  | acc, [] => if acc.isEmpty then [] else [acc.reverse]
  | acc, c :: rest =>
    if isBlank c then (if acc.isEmpty then splitBlanks [] rest else acc.reverse :: splitBlanks [] rest)
    else splitBlanks (c :: acc) rest

/-- A line without its comment. -/
def stripComment (line : List Char) : List Char := line.takeWhile (· != ';')

/-- The value of a hexadecimal digit, in either case. -/
def hexDigit (c : Char) : Option Nat :=
  if 48 ≤ c.toNat ∧ c.toNat ≤ 57 then some (c.toNat - 48)
  else if 65 ≤ c.toNat ∧ c.toNat ≤ 70 then some (c.toNat - 55)
  else if 97 ≤ c.toNat ∧ c.toNat ≤ 102 then some (c.toNat - 87)
  else none

/-- The value of digits in a base, most significant first (R9). -/
def digitsValue (base : Nat) : Nat → List Char → Option Nat
  | v, [] => some v
  | v, c :: rest =>
    match hexDigit c with
    | some d => if d < base then digitsValue base (base * v + d) rest else none
    | none => none

/-- An operand: a byte in hexadecimal (`0x...`) or decimal (R51). R51 does not say how many digits it has: any number of
them is read, one at least, leading zeros included, and only a value above 255 is an error (DESIGN CHOICE, unsafe:
notes/assumptions/7.md). -/
def parseByte (t : List Char) : Option Byte :=
  match
    (match t with
    | '0' :: 'x' :: d :: rest => digitsValue 16 0 (d :: rest)
    | d :: rest => digitsValue 10 0 (d :: rest)
    | [] => none) with
  | some n => if n < 256 then some (BitVec.ofNat 8 n) else none
  | none => none

/-- The mnemonics of R51. -/
def Instr.mnemonic : Instr → List Char
  | .init => "INIT".toList
  | .updateByte _ => "UPDATE_BYTE".toList
  | .finalize => "FINALIZE".toList
  | .readDigest _ => "READ_DIGEST".toList
  | .readStatus _ => "READ_STATUS".toList

/-- The command of a mnemonic and its operand, if R51 has such a line and R45 such a word. -/
def parseCommand : List (List Char) → Option Instr
  | [m] =>
    if m = Instr.init.mnemonic then some .init
    else if m = Instr.finalize.mnemonic then some .finalize
    else none
  | [m, t] =>
    match parseByte t with
    | none => none
    | some b =>
      if m = (Instr.updateByte b).mnemonic then some (.updateByte b)
      else if m = (Instr.readDigest b).mnemonic then
        (if (Instr.readDigest b).wellFormed then some (.readDigest b) else none)
      else if m = (Instr.readStatus b).mnemonic then
        (if (Instr.readStatus b).wellFormed then some (.readStatus b) else none)
      else none
  | _ => none

/-- A line assembles to the 16-bit word of R45. -/
def assembleLine (line : List Char) : AsmLine :=
  match splitBlanks [] (stripComment line) with
  | [] => .empty
  | parts =>
    match parseCommand parts with
    | some i => .word (encode i)
    | none => .error

/-- The words of a program, line by line; `none` if a line is no line of R51. -/
def assemble : List (List Char) → Option (List CommandWord)
  | [] => some []
  | line :: rest =>
    match assembleLine line, assemble rest with
    | .empty, some ws => some ws
    | .word w, some ws => some (w :: ws)
    | _, _ => none

/-- A hexadecimal digit. -/
def hexChar (n : Nat) : Char := if n < 10 then Char.ofNat (48 + n) else Char.ofNat (55 + n)

/-- A byte as `0x` and two hexadecimal digits. -/
def hexByte (b : Byte) : List Char := ['0', 'x', hexChar (b.toNat / 16), hexChar (b.toNat % 16)]

/-- The line of a command (R51). -/
def Instr.line (i : Instr) : List Char :=
  match i with
  | .init => i.mnemonic
  | .finalize => i.mnemonic
  | .updateByte b => i.mnemonic ++ ' ' :: hexByte b
  | .readDigest j => i.mnemonic ++ ' ' :: hexByte j
  | .readStatus sel => i.mnemonic ++ ' ' :: hexByte sel

end Sys2Proof
end

