-- ==== Sys2Proof/Machine/Ideal.lean ====
section
/-! DEFINITION. The hash context at message level: which message has been given since the last INIT, and nothing of
lanes, blocks or cursors (41_sponge.md rules R69 to R71, 42_commands.md rule R81). It is what the engine computes, said
without how; the engine's steps are stated to refine it. -/

namespace Sys2Proof.Machine

/-- A hash context as a message: none yet, the bytes of UPDATE_BYTE so far, or the whole message of a frozen digest. -/
inductive Ideal where
  | created
  | absorbing (M : List Byte)
  | finalized (M : List Byte)
  deriving DecidableEq, Repr

/-- The table of R81, with the digest of R69 and the cursor of R18. -/
def Ideal.exec (a : Ideal) (i : Instr) : Ideal × Response :=
  match a, i with
  | _, .init => (.absorbing [], ⟨.ok, 0⟩)
  | .absorbing M, .updateByte b => (.absorbing (M ++ [b]), ⟨.ok, 0⟩)
  | .absorbing M, .finalize => (.finalized M, ⟨.ok, 0⟩)
  | .finalized M, .readDigest j => (.finalized M, ⟨.ok, (keccak256 M).toList.getD j.toNat 0⟩)
  | .created, .readStatus _ => (.created, ⟨.ok, 0⟩)
  | .absorbing M, .readStatus sel =>
    (.absorbing M, ⟨.ok, if sel = 0 then 1 else BitVec.ofNat 8 (M.length % 136)⟩)
  | .finalized M, .readStatus sel => (.finalized M, ⟨.ok, if sel = 0 then 2 else 0⟩)
  | a, .updateByte _ => (a, ⟨.errState, 0⟩)
  | a, .finalize => (a, ⟨.errState, 0⟩)
  | a, .readDigest _ => (a, ⟨.errState, 0⟩)

/-- One command word at message level: an illegal word changes nothing (R79). -/
def Ideal.step (a : Ideal) (w : CommandWord) : Ideal × Response :=
  match decode w with
  | .command i => a.exec i
  | .illegal _ => (a, ⟨.errIllegal, 0⟩)

/-- The context after a sequence of command words, from CREATED. -/
def Ideal.after (ws : List CommandWord) : Ideal := ws.foldl (fun a w => (a.step w).1) .created

/-- The hash context that stands for a message: the lanes of its full blocks, its tail in BUF, CURSOR at the tail's
length; after FINALIZE the lanes of R69, BUF zero and CURSOR 0. -/
def Ideal.context : Ideal → Context
  | .created => .reset
  | .absorbing M => ⟨absorbFull M, Block.ofBytes (messageTail M), tailLength M, .absorbing⟩
  | .finalized M => ⟨absorbMessage M, .zero, 0, .finalized⟩

end Sys2Proof.Machine
end

