-- ==== Sys2Proof/Machine/InPlace.lean ====
section
/-! DEFINITION. The permutation as an implementation that overwrites the lane array "in place" computes it
(40_permutation.md rule R64): one lane written at a time, with the intermediate values that R55, R57, R58 and R60 name
held aside. The engine's meanings call `keccakF`; that this program computes the same function is a statement. -/

namespace Sys2Proof.Machine

/-- The indices `0..4`. -/
def axis : List (Fin 5) := [0, 1, 2, 3, 4]

/-- THETA in place: the effects `D[x]` first, then one lane after another. -/
def thetaInPlace (A : LaneArray) : LaneArray :=
  let D := thetaEffect (columnParity A)
  axis.foldl (fun A y => axis.foldl (fun A x => A.setLane x y (A.lane x y ^^^ D.get x)) A) A

/-- One turn of RHO and PI in place: the lane held aside goes, rotated, to the next position of R56's orbit, whose old
lane is held aside in its turn. -/
def rhoPiTurn (t : Nat) (p : LaneArray × Lane) : LaneArray × Lane :=
  (p.1.setLane (rhoOrbit (t + 1)).1 (rhoOrbit (t + 1)).2 (rol64 p.2 (rhoStep t)),
    p.1.lane (rhoOrbit (t + 1)).1 (rhoOrbit (t + 1)).2)

/-- RHO and PI in place: 24 turns along R56's orbit, from lane `A[1, 0]`. -/
def rhoPiInPlace (A : LaneArray) : LaneArray :=
  ((List.range 24).foldl (fun p t => rhoPiTurn t p) (A, A.lane 1 0)).1

/-- CHI in place: a row's five lanes are copied before any of them is written. -/
def chiRowInPlace (A : LaneArray) (y : Fin 5) : LaneArray :=
  let R := A.row y
  axis.foldl (fun A x => A.setLane x y (R.get x ^^^ (~~~(R.get (x + 1)) &&& R.get (x + 2)))) A

/-- CHI in place. -/
def chiInPlace (A : LaneArray) : LaneArray := axis.foldl chiRowInPlace A

/-- The wrong CHI that R60 warns of: a row's lanes are written without a copy, so later ones read written ones. -/
def chiRowSequential (A : LaneArray) (y : Fin 5) : LaneArray :=
  axis.foldl (fun A x => A.setLane x y (A.lane x y ^^^ (~~~(A.lane (x + 1) y) &&& A.lane (x + 2) y))) A

/-- ROUND in place. -/
def roundInPlace (A : LaneArray) (ir : Fin 24) : LaneArray :=
  let B := chiInPlace (rhoPiInPlace (thetaInPlace A))
  B.setLane 0 0 (B.lane 0 0 ^^^ roundConstant ir)

/-- KECCAK_F in place. -/
def keccakFInPlace (A : LaneArray) : LaneArray := roundIndices.foldl roundInPlace A

end Sys2Proof.Machine
end

