-- ==== Sys2Proof/Machine/Platform.lean ====
section
/-! DEFINITION. A platform of `N_ENGINES` engines (60_exceptions.md rule R100). `N_ENGINES` is the argument `n`, OPEN in
the spec (R6, D21); statements take any `n`, among them every `n >= 1` (DEDUCED, safe: notes/assumptions/10.md). "The
engines share no state, need no identifiers from the engine's point of view, and signal nothing to one another." -/

namespace Sys2Proof.Machine

/-- `n` engines, each with its own hash context and its own command port. -/
structure Platform (n : Nat) where
  engines : Vector State n
  deriving DecidableEq, Repr

/-- "They start in reset independently" (R100). -/
def Platform.reset (n : Nat) : Platform n := ⟨Vector.replicate n .reset⟩

/-- Engine `k` takes one step (R39). Which engine acts is no engine's state (R27). -/
def Platform.step {n : Nat} (p : Platform n) (k : Fin n) : Host.Outcome (Platform n) Fault Refusal :=
  match Machine.step p.engines[k.val] with
  | .next t => .next ⟨p.engines.set k.val t⟩
  | .fault f => .fault f
  | .refused r => .refused r

/-- A host issues an event to engine `k`: it goes to the end of that engine's inbox, in issue order (R37). -/
def Platform.issueTo {n : Nat} (p : Platform n) (k : Fin n) (e : HostEvent) : Platform n :=
  ⟨p.engines.set k.val { p.engines[k.val] with inbox := p.engines[k.val].inbox ++ [e] }⟩

/-- The engines step in the order of a schedule. -/
def Platform.run {n : Nat} : List (Fin n) → Platform n → Host.Outcome (Platform n) Fault Refusal
  | [], p => .next p
  | k :: rest, p =>
    match p.step k with
    | .next q => q.run rest
    | .fault f => .fault f
    | .refused r => .refused r

end Sys2Proof.Machine
end

