-- ==== Sys2Proof/Machine/HostOps.lean ====
section
/-! DEFINITION. The host-level operations UPDATE, DIGEST and KECCAK256 (42_commands.md rules R82 to R84), as the host
performs them: by issuing command words to an engine and reading the response words. "They are not engine commands and
have no encoding" (R52). The host's input array is a list of bytes addressed by natural numbers (R30). -/

namespace Sys2Proof.Machine

/-- The errors a host operation reports (R89, R104): reported outcomes, no faults of the model. -/
inductive HostError where
  /-- StateError (R90): UPDATE and DIGEST, when a command of theirs reports it. -/
  | stateError
  /-- InvalidArgument (R92): KECCAK256, for a range outside the input array. -/
  | invalidArgument
  deriving DecidableEq, Repr

/-- How a host operation ends: with a value, or with a reported error. -/
inductive HostResult (α : Type) where
  | done (value : α)
  | raised (e : HostError)
  deriving DecidableEq, Repr

/-- A host at work on one engine: the engine, the command words the host has issued and the indices of its input array
it has read, oldest first. -/
structure Session where
  engine : State
  issued : List CommandWord
  inputRead : List Nat
  deriving DecidableEq, Repr

/-- A host that has done nothing yet. -/
def Session.start (s : State) : Session := ⟨s, [], []⟩

/-- What a host operation answers: the session after it with its result, or a stop of the model. -/
abbrev HostOutcome (α : Type) := Host.Outcome (Session × HostResult α) Fault Refusal

/-- Sequencing of outcomes. -/
def bindOutcome {α β : Type} (o : Host.Outcome α Fault Refusal)
    (k : α → Host.Outcome β Fault Refusal) : Host.Outcome β Fault Refusal :=
  match o with
  | .next a => k a
  | .fault f => .fault f
  | .refused r => .refused r

/-- The response word at the engine's response port, as the host receives it (R43, R73). -/
def receive (s : State) : Host.Outcome Response Fault Refusal :=
  match s.response with
  | some r => Response.ofWord r.word
  | none => .fault .hostProtocol

/-- The host presents one command word, the engine takes its step, and the host has the response before it does
anything else (R73). Between the two nobody else reaches the engine: the command stands before all else issued. -/
def issue (w : CommandWord) (h : Session) : Host.Outcome (Session × Response) Fault Refusal :=
  bindOutcome (step (h.engine.present w)) fun t =>
    bindOutcome (receive t) fun r => .next ({ h with engine := t, issued := h.issued ++ [w] }, r)

/-- `InByte(k) = input[k]`, "defined only for `0 <= k < n`" (R30). -/
def readInput (input : List Byte) (k : Nat) (h : Session) : Host.Outcome (Session × Byte) Fault Refusal :=
  match input[k]? with
  | some b => .next ({ h with inputRead := h.inputRead ++ [k] }, b)
  | none => .fault .inputOutOfRange

/-! ## UPDATE -/

/-- The loop of UPDATE (R82): one UPDATE_BYTE for each byte, in order, up to the first that is not OK. -/
def feedBytes : List Byte → Session → HostOutcome Unit
  | [], h => .next (h, .done ())
  | b :: rest, h =>
    bindOutcome (issue (encode (.updateByte b)) h) fun p =>
      if p.2.code = .ok then feedBytes rest p.1 else .next (p.1, .raised .stateError)

/-- UPDATE `data` (R82). A zero-length UPDATE issues READ_STATUS 0 and raises StateError unless the FSM code is 1
(D18). -/
def hostUpdate (data : List Byte) (h : Session) : HostOutcome Unit :=
  match data with
  | [] =>
    bindOutcome (issue (encode (.readStatus 0)) h) fun p =>
      if p.2.data = 1 then .next (p.1, .done ()) else .next (p.1, .raised .stateError)
  | b :: rest => feedBytes (b :: rest) h

/-- UPDATE with one chunk after another, up to the first that raises an error (R70). -/
def hostUpdateChunks : List (List Byte) → Session → HostOutcome Unit
  | [], h => .next (h, .done ())
  | chunk :: rest, h =>
    bindOutcome (hostUpdate chunk h) fun p =>
      match p.2 with
      | .done () => hostUpdateChunks rest p.1
      | .raised e => .next (p.1, .raised e)

/-! ## DIGEST -/

/-- The loop of DIGEST (R83): READ_DIGEST for each index, in order, up to the first that is not OK. -/
def readDigestBytes : List Byte → Session → HostOutcome (List Byte)
  | [], h => .next (h, .done [])
  | j :: rest, h =>
    bindOutcome (issue (encode (.readDigest j)) h) fun p =>
      if p.2.code = .ok then
        bindOutcome (readDigestBytes rest p.1) fun q =>
          match q.2 with
          | .done ds => .next (q.1, .done (p.2.data :: ds))
          | .raised e => .next (q.1, .raised e)
      else .next (p.1, .raised .stateError)

/-- The digest byte indices `0..31`. -/
def digestIndices : List Byte := (List.range 32).map (BitVec.ofNat 8)

/-- DIGEST (R83). -/
def hostDigest (h : Session) : HostOutcome (List Byte) := readDigestBytes digestIndices h

/-! ## KECCAK256 -/

/-- A command of the KECCAK256 expansion: "A model must treat any non-OK response inside the expansion as a fault of the
host operation" (R84). -/
def issueOk (w : CommandWord) (h : Session) : Host.Outcome Session Fault Refusal :=
  bindOutcome (issue w h) fun p => if p.2.code = .ok then .next p.1 else .fault .hostProtocol

/-- The loop of KECCAK256: `UPDATE_BYTE InByte(k)` for each index `k`, in order (R84). -/
def feedInput (input : List Byte) : List Nat → Session → Host.Outcome Session Fault Refusal
  | [], h => .next h
  | k :: rest, h =>
    bindOutcome (readInput input k h) fun p =>
      bindOutcome (issueOk (encode (.updateByte p.2)) p.1) fun h' => feedInput input rest h'

/-- KECCAK256 `input, start, length` (R84). The range check is over unbounded naturals, before any command (R92). -/
def hostKeccak256 (input : List Byte) (start length : Nat) (h : Session) : HostOutcome (List Byte) :=
  if start + length > input.length then .next (h, .raised .invalidArgument)
  else
    bindOutcome (issueOk (encode .init) h) fun h1 =>
      bindOutcome (feedInput input (List.range' start length) h1) fun h2 =>
        bindOutcome (issueOk (encode .finalize) h2) fun h3 =>
          bindOutcome (hostDigest h3) fun p =>
            match p.2 with
            | .done d => .next (p.1, .done d)
            | .raised _ => .fault .hostProtocol

/-- KECCAK256 for a host that holds `start` and `length` in `w` bits (R6 `HOST_INDEX_WIDTH`, OPEN): the check does not
depend on the width and cannot wrap (D19). -/
def hostKeccak256AtWidth {w : Nat} (input : List Byte) (start length : BitVec w) (h : Session) :
    HostOutcome (List Byte) :=
  hostKeccak256 input start.toNat length.toNat h

/-! ## The register view and whole command sequences -/

/-- The register view of R24, as a host reads it: the lifecycle state of READ_STATUS 0 and the CURSOR of READ_STATUS 1.
A host that meets FSM code 3 refuses (U7). -/
def hostStatus (h : Session) : Host.Outcome (Session × Fsm × Byte) Fault Refusal :=
  bindOutcome (issue (encode (.readStatus 0)) h) fun p =>
    bindOutcome (Fsm.ofCode (p.2.data.setWidth 2)) fun f =>
      bindOutcome (issue (encode (.readStatus 1)) p.1) fun q => .next (q.1, f, q.2.data)

/-- A program: a sequence of command words, each issued when the response of the one before is there (R21, R73), with
all the responses in order. -/
def runWords : List CommandWord → Session → Host.Outcome (Session × List Response) Fault Refusal
  | [], h => .next (h, [])
  | w :: rest, h =>
    bindOutcome (issue w h) fun p =>
      bindOutcome (runWords rest p.1) fun q => .next (q.1, p.2 :: q.2)

/-- `k` steps of the engine, each taking the next event the hosts have issued. -/
def runSteps : Nat → State → Host.Outcome State Fault Refusal
  | 0, s => .next s
  | k + 1, s => bindOutcome (step s) (runSteps k)

/-- The command words of a complete hash of `M` (R108, R114): INIT, the UPDATE_BYTEs, FINALIZE and 32 READ_DIGESTs. -/
def hashProgram (M : List Byte) : List CommandWord :=
  encode .init :: (M.map fun b => encode (.updateByte b)) ++
    encode .finalize :: digestIndices.map fun j => encode (.readDigest j)

end Sys2Proof.Machine
end

