-- ==== Sys2Proof/Machine/Sharing.lean ====
section
/-! DEFINITION. Two hosts that drive one engine without coordination (20_memory.md rule R38, 60_exceptions.md rules R101,
R104): commands are atomic, so the two streams interleave command by command, and every interleaving is admitted. A
digest is claimed only for a host that owned the engine exclusively from INIT on; otherwise the claim is refused
(`SharedContext`, 93_implementation_defined.md U1). -/

namespace Sys2Proof.Machine

/-- A host's name. The engine does not know it: it is no part of a command word. -/
abbrev HostId := Nat

/-- A command word with the host that issues it. -/
structure Tagged where
  host : HostId
  word : CommandWord
  deriving DecidableEq, Repr

/-- `zs` is an interleaving of `xs` and `ys`: all of both, each in its own order. -/
inductive Interleaving {α : Type} : List α → List α → List α → Prop where
  | nil : Interleaving [] [] []
  | left {x : α} {xs ys zs : List α} : Interleaving xs ys zs → Interleaving (x :: xs) ys (x :: zs)
  | right {y : α} {xs ys zs : List α} : Interleaving xs ys zs → Interleaving xs (y :: ys) (y :: zs)

/-- The scheduler: `true` lets the first stream go next, `false` the second; when a stream or the schedule is at its
end, what is left follows. -/
def interleave {α : Type} : List Bool → List α → List α → List α
  | _, [], ys => ys
  | [], xs, ys => xs ++ ys
  | true :: t, x :: xs, ys => x :: interleave t xs ys
  | false :: t, x :: xs, [] => x :: interleave t xs []
  | false :: t, x :: xs, y :: ys => y :: interleave t (x :: xs) ys

/-- A host's stream of command words. -/
def streamOf (h : HostId) (ws : List CommandWord) : List Tagged := ws.map fun w => ⟨h, w⟩

/-- The run of an interleaved stream: the engine sees the words alone (R37, R38), and each host gets the responses of
its own words. -/
def runTagged : List Tagged → Session → Host.Outcome (Session × List (HostId × Response)) Fault Refusal
  | [], s => .next (s, [])
  | c :: rest, s =>
    bindOutcome (issue c.word s) fun p =>
      bindOutcome (runTagged rest p.1) fun q => .next (q.1, (c.host, p.2) :: q.2)

/-- Who owns the context after one more command: INIT makes its host the owner; a command of another host ends
exclusive ownership until the next INIT (DESIGN CHOICE, safe: notes/assumptions/8.md). `none` stands for no exclusive
owner. -/
def ownerAfter (owner : Option HostId) (c : Tagged) : Option HostId :=
  if decode c.word = .command .init then some c.host
  else if owner = some c.host then owner
  else none

/-- The exclusive owner of the context after a stream on an engine in reset (R38: "from INIT to the last READ_DIGEST"). -/
def exclusiveOwner (trace : List Tagged) : Option HostId := trace.foldl ownerAfter none

/-- The digest that host `h` claims after the stream `trace` ran on the engine: refused unless `h` owned the engine
exclusively from the last INIT on; otherwise what DIGEST then reads. -/
def claimDigest (h : HostId) (trace : List Tagged) (s : State) : HostOutcome (List Byte) :=
  if exclusiveOwner trace = some h then
    bindOutcome (runTagged trace (.start s)) fun p => hostDigest p.1
  else .refused .sharedContext

/-- The words a host itself issued in a stream, in its own order. -/
def wordsOf (h : HostId) (trace : List Tagged) : List CommandWord :=
  (trace.filter fun c => c.host = h).map Tagged.word

end Sys2Proof.Machine
end

