-- ==== Sys2Proof/Safety.lean ====
section
/-! DEFINITION. The well-formed states of 10_state.md rule R26 and the states an engine can reach. -/

namespace Sys2Proof.Machine

/-- The buffer invariant of R19: `BUF[k] = 0x00` for every `k` with `CURSOR <= k <= 135`. -/
def Context.bufferClear (c : Context) : Prop := ∀ k : Fin 136, c.cursor ≤ k → c.buf[k.val] = 0

/-- Well formed (R26). That there are 25 lanes and 136 bytes, that CURSOR is in `0..135` and that FSM is one of the three
states is so by the types. -/
structure Context.WellFormed (c : Context) : Prop where
  /-- The buffer invariant of R19. -/
  bufferClear : c.bufferClear
  /-- In CREATED: all lanes are 0, all of BUF is 0 and CURSOR is 0. -/
  created : c.fsm = .created → c.lanes = .zero ∧ c.buf = .zero ∧ c.cursor = 0
  /-- In FINALIZED: all of BUF is 0 and CURSOR is 0. -/
  finalized : c.fsm = .finalized → c.buf = .zero ∧ c.cursor = 0

/-- The states an engine reaches from reset, whatever the hosts issue: between two steps the hosts may issue anything
(R38), and only a step changes anything else (R103). -/
inductive Reachable : State → Prop where
  | reset : Reachable .reset
  | issue {s : State} (events : List HostEvent) : Reachable s → Reachable { s with inbox := s.inbox ++ events }
  | step {s t : State} : Reachable s → Machine.step s = .next t → Reachable t

/-- A safe run: the engine never stops. -/
def NeverStops (s : State) : Prop := ∃ t, Machine.step s = .next t

end Sys2Proof.Machine
end

