-- ==== Sys2Proof/Certificates/Slice0/Obligations.lean ====
section
/-! DEFINITION. The statements for the provers, in the order of the spec's files. The engine has no memory (R29), so a
frame says what becomes of the lanes, BUF, CURSOR, FSM, the response port and the inbox: the statements of results give
the whole next state, and so what an instruction leaves unchanged too. The inbox and the response held at the port are
the model's form of R73's command port (notes/assumptions/1.md and 2.md); the statements say of them only that a command
adds its one response and leaves the rest of the inbox alone. -/

open Sys2Proof Sys2Proof.Machine

/-! ## 00_scope.md: the word primitives -/

/-- R10: the formula of `ROL64`, and "Bit `z` of `v` moves to bit `(z + n) mod 64`". -/
def Obligations.RotationMovesEveryBit : Prop :=
  ∀ v : Lane, rol64 v 0 = v ∧
    (∀ n, 0 < n → n < 64 → rol64 v n = (v <<< n ||| v >>> (64 - n))) ∧
    ∀ n z, n < 64 → z < 64 → (rol64 v n).getLsbD ((z + n) % 64) = v.getLsbD z

/-- R12: `LE64` puts byte `k` at bits `8k+7..8k`, `BYTE` is its inverse, and state byte `j` is `BYTE(A[j div 8], j mod 8)`. -/
def Obligations.LaneBytesAreLittleEndian : Prop :=
  (∀ b0 b1 b2 b3 b4 b5 b6 b7 : Byte,
    (List.range 8).map (byteOf (le64 b0 b1 b2 b3 b4 b5 b6 b7)) = [b0, b1, b2, b3, b4, b5, b6, b7]) ∧
  (∀ v : Lane, le64 (byteOf v 0) (byteOf v 1) (byteOf v 2) (byteOf v 3) (byteOf v 4) (byteOf v 5) (byteOf v 6)
    (byteOf v 7) = v) ∧
  (∀ (v : Lane) (k : Nat), k < 8 → byteOf v k = v.extractLsb' (8 * k) 8) ∧
  ∀ (A : LaneArray) (i : Fin 25) (k : Nat) (h : k < 8),
    A.stateByte ⟨8 * i.val + k, by omega⟩ = byteOf (A.at i) k

/-! ## 10_state.md: the state, reset and well-formedness -/

/-- What reset leaves (R28, R105), at power-on and as an event between two commands. That no response stands at the port
after a reset is the model's choice, notes/assumptions/2.md: the spec says only that reset returns none. -/
def Obligations.ResetLeavesTheZeroContextInCreated : Prop :=
  State.reset.response = none ∧
  (∀ i : Fin 25, State.reset.ctx.lanes.at i = 0) ∧ (∀ k : Fin 136, State.reset.ctx.buf[k.val] = 0) ∧
  State.reset.ctx.cursor = 0 ∧ State.reset.ctx.cursorByte = 0 ∧
  State.reset.ctx.fsm = .created ∧ State.reset.ctx.fsm.code = 0 ∧
  ∀ (s : State) (rest : List HostEvent), s.inbox = .reset :: rest →
    ∃ t, step s = .next t ∧ t.ctx = State.reset.ctx ∧ t.response = none

/-- R20, columns "entered by" and "left by": FSM changes only so. -/
def Obligations.LifecycleStateChangesOnlyAsTabulated : Prop :=
  ∀ s t : State, step s = .next t →
    (t.ctx.fsm = .created → s.ctx.fsm = .created ∨ s.inbox.head? = some .reset) ∧
    (t.ctx.fsm = .absorbing → s.ctx.fsm = .absorbing ∨ s.inbox.head? = some (.command (encode .init))) ∧
    (t.ctx.fsm = .finalized → s.ctx.fsm = .finalized ∨
      (s.ctx.fsm = .absorbing ∧ s.inbox.head? = some (.command (encode .finalize)))) ∧
    (s.ctx.fsm = .finalized → t.ctx.fsm ≠ .finalized →
      (s.inbox.head? = some .reset ∧ t.ctx = .reset) ∨
      (s.inbox.head? = some (.command (encode .init)) ∧ t.ctx = .fresh))

/-- R24: the register view, as a host reads it with READ_STATUS 0 and 1, in every state: the FSM code with `DATA[7:2]`
zero, and CURSOR, which is in `0..135`; reading changes no state. -/
def Obligations.RegisterViewShowsFsmAndCursor : Prop :=
  ∀ h : Session, ∃ h' : Session,
    hostStatus h = .next (h', h.engine.ctx.fsm, h.engine.ctx.cursorByte) ∧
    h'.engine.ctx = h.engine.ctx ∧
    h.engine.ctx.fsmByte.extractLsb' 0 2 = h.engine.ctx.fsm.code ∧ h.engine.ctx.fsmByte.extractLsb' 2 6 = 0 ∧
    h.engine.ctx.fsm.code ≠ 3 ∧ h.engine.ctx.cursorByte.toNat = h.engine.ctx.cursor.val

/-- R25: no response shows BUF or lanes 4..24, and lanes 0..3 show only in FINALIZED. Two engines that agree on FSM and
CURSOR, and in FINALIZED on lanes 0..3, answer every command alike. -/
def Obligations.HiddenStateNeverShowsInAResponse : Prop :=
  ∀ (s s' t t' : State) (w : CommandWord), s.ctx.fsm = s'.ctx.fsm → s.ctx.cursor = s'.ctx.cursor →
    (s.ctx.fsm = .finalized → ∀ i : Fin 25, i.val < 4 → s.ctx.lanes.at i = s'.ctx.lanes.at i) →
    step (s.present w) = .next t → step (s'.present w) = .next t' → t.response = t'.response

/-- R26: "Reset makes the state well formed, and every command keeps it so"; so does every other step. -/
def Obligations.EveryStepKeepsTheStateWellFormed : Prop :=
  State.reset.ctx.WellFormed ∧ ∀ s t : State, s.ctx.WellFormed → step s = .next t → t.ctx.WellFormed

/-- The invariant of R26 holds at reset. -/
def Obligations.ResetIsWellFormed : Prop := State.reset.ctx.WellFormed

/-! ## 20_memory.md: byte order, atomicity, ordering -/

/-- R31: byte `j` of a block goes into state byte `j`; equivalently lane `i` is XORed with `LE64(block[8i], ...)`, and
lanes beyond the rate are untouched. -/
def Obligations.AbsorptionXorsBytesLittleEndian : Prop :=
  ∀ (A : LaneArray) (blk : Block),
    (∀ j : Fin 200, (xorBlock A blk).stateByte j =
      if h : j.val < 136 then A.stateByte j ^^^ blk[j.val]'h else A.stateByte j) ∧
    (∀ i : Fin 17, (xorBlock A blk).at ⟨i.val, by omega⟩ = A.at ⟨i.val, by omega⟩ ^^^ Block.lane blk i) ∧
    ∀ i : Fin 25, 17 ≤ i.val → (xorBlock A blk).at i = A.at i

/-- R32: digest byte `j` is state byte `j`, from the least significant byte of `A[0]` to the most significant of
`A[3]`. -/
def Obligations.DigestBytesAreStateBytes : Prop :=
  ∀ (A : LaneArray) (j : Fin 32), (squeeze A)[j.val] = A.stateByte ⟨j.val, by omega⟩ ∧
    (squeeze A)[j.val] = (A.at ⟨j.val / 8, by omega⟩).extractLsb' (8 * (j.val % 8)) 8

/-- R36: which commands may be repeated. -/
def Obligations.OnlyReadsAndInitAreIdempotent : Prop :=
  (∀ (s t : State) (b : Byte), exec (.updateByte b) s = .next t → s.ctx.fsm = .absorbing → t.ctx ≠ s.ctx) ∧
  (∀ (s t : State) (ws : List CommandWord) (g : Session) (rs : List Response), exec .finalize s = .next t →
    s.ctx.fsm = .absorbing → (∀ w ∈ ws, decode w ≠ .command .init) → runWords ws (.start t) = .next (g, rs) →
    exec .finalize g.engine = .next { g.engine with response := some ⟨.errState, 0⟩ }) ∧
  (∀ s t : State, exec .init s = .next t → exec .init t = .next t) ∧
  (∀ (s t : State) (j : Byte), exec (.readDigest j) s = .next t →
    t.ctx = s.ctx ∧ exec (.readDigest j) t = .next t) ∧
  (∀ (s t : State) (sel : Byte), exec (.readStatus sel) s = .next t →
    t.ctx = s.ctx ∧ exec (.readStatus sel) t = .next t) ∧
  ∀ (s t : State) (w : CommandWord) (r : Response), step (s.present w) = .next t → t.response = some r →
    r.code ≠ .ok → t.ctx = s.ctx

/-- R37: commands take effect in issue order, each on the state the earlier ones left: a program is the composition of
its parts, and commands that stand at the port in issue order (the inbox, notes/assumptions/1.md) run as the host
issuing them one by one. -/
def Obligations.CommandsTakeEffectInIssueOrder : Prop :=
  (∀ (xs ys : List CommandWord) (h : Session), runWords (xs ++ ys) h =
    bindOutcome (runWords xs h) fun p => bindOutcome (runWords ys p.1) fun q => .next (q.1, p.2 ++ q.2)) ∧
  ∀ (ws : List CommandWord) (s : State) (rest : List HostEvent), s.inbox = ws.map .command ++ rest →
    ∃ h rs, runWords ws (.start { s with inbox := rest }) = .next (h, rs) ∧
      runSteps ws.length s = .next h.engine

/-- R38: every interleaving of two command streams is one that the model's scheduler gives, and it gives only those. -/
def Obligations.EveryInterleavingIsAdmitted : Prop :=
  ∀ xs ys zs : List Tagged, Interleaving xs ys zs ↔ ∃ schedule : List Bool, interleave schedule xs ys = zs

/-- R39, R100: the engines start in reset; a step of engine `j` is the engine's own step and changes nothing in another,
and what is issued to it reaches no other; steps of two engines commute; and however their steps are scheduled, each engine is where its own steps alone bring it. -/
def Obligations.EnginesShareNoState : Prop :=
  ∀ (n : Nat),
    (∀ j : Fin n, (Platform.reset n).engines[j.val] = State.reset) ∧
    (∀ (p : Platform n) (j : Fin n), ∃ q : Platform n, p.step j = .next q ∧
      Machine.step p.engines[j.val] = .next q.engines[j.val] ∧
      ∀ k : Fin n, k ≠ j → q.engines[k.val] = p.engines[k.val]) ∧
    (∀ (p : Platform n) (j k : Fin n) (e : HostEvent), k ≠ j →
      (p.issueTo j e).engines[k.val] = p.engines[k.val]) ∧
    (∀ (p : Platform n) (j k : Fin n), j ≠ k → ∃ q r u : Platform n,
      p.step j = .next q ∧ q.engines[k.val] = p.engines[k.val] ∧
      p.step k = .next r ∧ r.engines[j.val] = p.engines[j.val] ∧
      q.step k = .next u ∧ r.step j = .next u) ∧
    ∀ (schedule : List (Fin n)) (p : Platform n), ∃ q : Platform n, Platform.run schedule p = .next q ∧
      ∀ k : Fin n, runSteps (schedule.count k) p.engines[k.val] = .next q.engines[k.val]

/-! ## 30_encoding.md: the command words -/

/-- R43: every command word, legal or not, in every state, gets exactly one response, of the form the rule gives. -/
def Obligations.EveryCommandGetsOneResponse : Prop :=
  RspCode.ok.code = 0 ∧ RspCode.errState.code = 1 ∧ RspCode.errIllegal.code = 2 ∧
  ∀ (s : State) (w : CommandWord), ∃ (t : State) (r : Response),
    step (s.present w) = .next t ∧ t.response = some r ∧ t.inbox = s.inbox ∧
    r.word.extractLsb' 10 6 = 0 ∧ r.word.extractLsb' 8 2 = r.code.code ∧ r.word.extractLsb' 0 8 = r.data ∧
    r.code.code ≠ 3 ∧ Response.ofWord r.word = .next r ∧
    (r.code ≠ .ok → r.data = 0 ∧ t.ctx = s.ctx) ∧
    ((∀ j, decode w ≠ .command (.readDigest j)) → (∀ sel, decode w ≠ .command (.readStatus sel)) → r.data = 0)

/-- R45: the five rows, each with the words it admits, and no word in two rows. -/
def Obligations.WordsDecodeByTheirOpcodeRow : Prop :=
  ∀ w : CommandWord,
    (w &&& 0xFFFF = 0x0100 ↔ decode w = .command .init) ∧
    (w &&& 0xFF00 = 0x0200 ↔ decode w = .command (.updateByte (imm8Of w))) ∧
    (w &&& 0xFFFF = 0x0300 ↔ decode w = .command .finalize) ∧
    (w &&& 0xFFE0 = 0x0400 ↔ decode w = .command (.readDigest (imm8Of w))) ∧
    (w &&& 0xFFFE = 0x0500 ↔ decode w = .command (.readStatus (imm8Of w))) ∧
    matchingRows w ≤ 1 ∧ (matchingRows w = 1 ↔ ∃ i, decode w = .command i)

/-- R46, R47, R48, R79, R91: the illegal words, and what the engine does with each, in every FSM state. -/
def Obligations.IllegalWordsAreRejectedUnchanged : Prop :=
  ∀ (s : State) (w : CommandWord) (rest : List HostEvent), s.inbox = .command w :: rest →
    (((opOf w = 0x01 ∨ opOf w = 0x03) ∧ imm8Of w ≠ 0x00) ∨ (opOf w = 0x04 ∧ 0x20 ≤ imm8Of w) ∨
      (opOf w = 0x05 ∧ 0x02 ≤ imm8Of w) ∨ opOf w = 0x00 ∨ 0x06 ≤ opOf w ↔ ∃ why, decode w = .illegal why) ∧
    ∀ why, decode w = .illegal why →
      step s = .next { s with response := some ⟨.errIllegal, 0x00⟩, inbox := rest }

/-- Decoding an encoded well-formed command gives it back, with every operand. -/
def Obligations.DecodeOfEncodeIsTheCommand : Prop :=
  ∀ i : Instr, i.wellFormed → decode (encode i) = .command i

/-- A word that decodes to a command is that command's word, and the command is well formed. -/
def Obligations.EncodeOfDecodeIsTheWord : Prop :=
  ∀ (w : CommandWord) (i : Instr), decode w = .command i → i.wellFormed ∧ encode i = w

/-- Words written out bit by bit from R45 and R51. -/
def Obligations.WrittenOutWordsDecode : Prop :=
  decode 0b0000000100000000 = .command .init ∧
  decode 0b0000001001100001 = .command (.updateByte 0x61) ∧
  decode 0b0000001100000000 = .command .finalize ∧
  decode 0b0000010000011111 = .command (.readDigest 31) ∧
  decode 0b0000010100000001 = .command (.readStatus 1) ∧
  decode 0b0000000000000000 = .illegal .reservedOpcode

/-- R51: a command's line, with or without a comment and with its operand in hexadecimal or decimal, assembles to its
word. (Blanks, letter case and the number of an operand's digits are the model's choice, notes/assumptions/7.md.) -/
def Obligations.AssemblyLinesGiveTheirWords : Prop :=
  (∀ i : Instr, i.wellFormed → ∀ comment : List Char,
    assembleLine i.line = .word (encode i) ∧ assembleLine (i.line ++ ' ' :: ';' :: comment) = .word (encode i)) ∧
  (∀ b : Byte, assembleLine ("UPDATE_BYTE ".toList ++ Nat.toDigits 10 b.toNat) = .word (encode (.updateByte b))) ∧
  (∀ j : Byte, j < 32 →
    assembleLine ("READ_DIGEST ".toList ++ Nat.toDigits 10 j.toNat) = .word (encode (.readDigest j))) ∧
  ∀ sel : Byte, sel < 2 →
    assembleLine ("READ_STATUS ".toList ++ Nat.toDigits 10 sel.toNat) = .word (encode (.readStatus sel))

/-! ## 40_permutation.md: the permutation -/

/-- R53, R54: the 24 rounds in increasing order, each of the five steps in their order. -/
def Obligations.PermutationRuns24RoundsInOrder : Prop :=
  (∀ A : LaneArray, ∃ S : Nat → LaneArray, S 0 = A ∧
    (∀ ir : Fin 24, S (ir.val + 1) = iota (chi (pi (rho (theta (S ir.val))))) ir) ∧ keccakF A = S 24) ∧
  (keccakF .zero).at 0 = 0xF1258F7940E1DDE7

/-- R55: THETA, lane by lane, with all parities of the input state; a state whose parities are all zero is unchanged. -/
def Obligations.ThetaXorsNeighbourParities : Prop :=
  ∀ A : LaneArray, ∀ C : Fin 5 → Lane,
    (∀ x, C x = A.lane x 0 ^^^ A.lane x 1 ^^^ A.lane x 2 ^^^ A.lane x 3 ^^^ A.lane x 4) →
    (∀ x y, (theta A).lane x y = A.lane x y ^^^ (C (x + 4) ^^^ rol64 (C (x + 1)) 1)) ∧
    ((∀ x, C x = 0) → theta A = A)

/-- THETA bit by bit: bit `z` of a lane is XORed with bit `z` of the five lanes of column `x - 1` and bit `z - 1` of the
five lanes of column `x + 1`. -/
def Obligations.ThetaMixesElevenBits : Prop :=
  ∀ (A : LaneArray) (x y : Fin 5) (z : Nat), z < 64 →
    ((theta A).lane x y).getLsbD z =
      ([0, 1, 2, 3, 4] : List (Fin 5)).foldl (fun b v => b ^^ (A.lane (x + 4) v).getLsbD z ^^
        (A.lane (x + 1) v).getLsbD ((z + 63) % 64)) ((A.lane x y).getLsbD z)

/-- R56: the table of rotation offsets is the one its generator gives, within the source's constraints. -/
def Obligations.RotationOffsetsAreTheGeneratedOnes : Prop :=
  (List.range 25).map (fun i => rhoOffset (xOfIndex (Fin.ofNat 25 i)) (yOfIndex (Fin.ofNat 25 i))) =
    [0, 1, 62, 28, 27, 36, 44, 6, 55, 20, 3, 10, 43, 25, 39, 41, 45, 15, 21, 8, 18, 2, 61, 56, 14] ∧
  (∀ x y : Fin 5, rhoOffset x y = rhoGenerated x y ∧ rhoOffset x y < 64) ∧ rhoOffset 0 0 = 0 ∧
  rhoOffset 1 0 = 1 ∧ rhoOffset 0 1 = 36 ∧ (∀ t < 24, rhoOffset (rhoOrbit t).1 (rhoOrbit t).2 = rhoStep t)

/-- R57: RHO, lane by lane and bit by bit. -/
def Obligations.RhoRotatesEachLane : Prop :=
  ∀ (A : LaneArray) (x y : Fin 5),
    (rho A).lane x y = rol64 (A.lane x y) (rhoOffset x y) ∧ (rho A).lane 0 0 = A.lane 0 0 ∧
    (rhoOffset x y = 0 ↔ x = 0 ∧ y = 0) ∧ rhoOffset x y < 64 ∧
    ∀ z < 64, ((rho A).lane x y).getLsbD ((z + rhoOffset x y) % 64) = (A.lane x y).getLsbD z

/-- R58: PI, backward and forward, is a relabelling and a bijection. -/
def Obligations.PiRelabelsLanesBijectively : Prop :=
  (∀ (A : LaneArray) (x y : Fin 5), (pi A).lane x y = A.lane (x + 3 * y) x ∧
    (pi A).lane y (2 * x + 3 * y) = A.lane x y) ∧
  (∀ A : LaneArray, (pi A).lane 0 0 = A.lane 0 0) ∧ Function.Bijective pi

/-- R59: the table of round constants is the one its generator gives, and only the seven named bits can be 1. -/
def Obligations.RoundConstantsAreTheGeneratedOnes : Prop :=
  (∀ ir : Fin 24, roundConstant ir = rcGenerated ir.val) ∧
  (roundConstant 0, roundConstant 12) = (0x0000000000000001, 0x000000008000808B) ∧
  (roundConstant 1, roundConstant 13) = (0x0000000000008082, 0x800000000000008B) ∧
  (roundConstant 2, roundConstant 14) = (0x800000000000808A, 0x8000000000008089) ∧
  (roundConstant 3, roundConstant 15) = (0x8000000080008000, 0x8000000000008003) ∧
  (roundConstant 4, roundConstant 16) = (0x000000000000808B, 0x8000000000008002) ∧
  (roundConstant 5, roundConstant 17) = (0x0000000080000001, 0x8000000000000080) ∧
  (roundConstant 6, roundConstant 18) = (0x8000000080008081, 0x000000000000800A) ∧
  (roundConstant 7, roundConstant 19) = (0x8000000000008009, 0x800000008000000A) ∧
  (roundConstant 8, roundConstant 20) = (0x000000000000008A, 0x8000000080008081) ∧
  (roundConstant 9, roundConstant 21) = (0x0000000000000088, 0x8000000000008080) ∧
  (roundConstant 10, roundConstant 22) = (0x0000000080008009, 0x0000000080000001) ∧
  (roundConstant 11, roundConstant 23) = (0x000000008000000A, 0x8000000080008008) ∧
  ∀ (ir : Fin 24) (z : Nat), (roundConstant ir).getLsbD z = true → z ∈ [0, 1, 3, 7, 15, 31, 63]

/-- R60: CHI, lane by lane from the row's input lanes; rows of zeros and rows of ones are unchanged; the sequential
in-place update gives a different result. -/
def Obligations.ChiMixesRowsFromTheirInputs : Prop :=
  (∀ (A : LaneArray) (x y : Fin 5),
    (chi A).lane x y = A.lane x y ^^^ (~~~(A.lane (x + 1) y) &&& A.lane (x + 2) y)) ∧
  (∀ (A : LaneArray) (y : Fin 5), (∀ x, A.lane x y = 0) → ∀ x, (chi A).lane x y = 0) ∧
  (∀ (A : LaneArray) (y : Fin 5), (∀ x, A.lane x y = 0xFFFFFFFFFFFFFFFF) → ∀ x,
    (chi A).lane x y = 0xFFFFFFFFFFFFFFFF) ∧
  ∃ (A : LaneArray) (x y : Fin 5), (chiRowSequential A y).lane x y ≠ (chi A).lane x y

/-- R61: IOTA changes lane `(0,0)` alone. -/
def Obligations.IotaChangesLaneZeroOnly : Prop :=
  ∀ (A : LaneArray) (ir : Fin 24) (x y : Fin 5),
    (iota A ir).lane x y = if x = 0 ∧ y = 0 then A.lane 0 0 ^^^ roundConstant ir else A.lane x y

/-- R63: what each step's output bits depend on. -/
def Obligations.StepsActOnSlicesLanesAndRows : Prop :=
  (∀ (A B : LaneArray) (z : Nat), z < 64 →
    (∀ x y, (A.lane x y).getLsbD z = (B.lane x y).getLsbD z) →
    (∀ x y, (A.lane x y).getLsbD ((z + 63) % 64) = (B.lane x y).getLsbD ((z + 63) % 64)) →
    ∀ x y, ((theta A).lane x y).getLsbD z = ((theta B).lane x y).getLsbD z) ∧
  (∀ (A B : LaneArray) (x y : Fin 5), A.lane x y = B.lane x y → (rho A).lane x y = (rho B).lane x y) ∧
  (∃ f : Fin 5 × Fin 5 → Fin 5 × Fin 5, Function.Bijective f ∧ ∀ (A : LaneArray) (x y : Fin 5),
    (pi A).lane x y = A.lane (f (x, y)).1 (f (x, y)).2) ∧
  (∀ (A B : LaneArray) (y : Fin 5) (z : Nat), (∀ x, (A.lane x y).getLsbD z = (B.lane x y).getLsbD z) →
    ∀ x, ((chi A).lane x y).getLsbD z = ((chi B).lane x y).getLsbD z) ∧
  ∀ (A : LaneArray) (ir : Fin 24) (x y : Fin 5), (x, y) ≠ (0, 0) → (iota A ir).lane x y = A.lane x y

/-- R64: the permutation computed in place is the pure function. -/
def Obligations.InPlacePermutationIsKeccakF : Prop :=
  (∀ A : LaneArray, thetaInPlace A = theta A ∧ rhoPiInPlace A = pi (rho A) ∧ chiInPlace A = chi A) ∧
  (∀ (A : LaneArray) (ir : Fin 24), roundInPlace A ir = keccakRound A ir) ∧
  ∀ A : LaneArray, keccakFInPlace A = keccakF A

/-- R65: the steps and the round on the all-zero state. -/
def Obligations.ZeroStateRoundLeavesTheRoundConstant : Prop :=
  theta .zero = .zero ∧ rho .zero = .zero ∧ pi .zero = .zero ∧ chi .zero = .zero ∧
  (∀ (ir : Fin 24) (i : Fin 25), (keccakRound .zero ir).at i = if i = 0 then roundConstant ir else 0) ∧
  keccakF .zero ≠ .zero

/-! ## 41_sponge.md: padding, absorption, squeezing and the message-level function -/

/-- R66: the bytes of the padded block. -/
def Obligations.PaddingFramesTheBufferedBytes : Prop :=
  ∀ (buf : Block) (cursor k : Fin 136), (∀ m : Fin 136, cursor ≤ m → buf[m.val] = 0) →
    (pad buf cursor)[k.val] =
      if k < cursor then buf[k.val]
      else if k = cursor then (if k = 135 then 0x81 else 0x01)
      else if k = 135 then 0x80 else 0x00

/-- R67: ABSORB_BLOCK is KECCAK_F of the array whose first 17 lanes are XORed with the block's. -/
def Obligations.AbsorbBlockPermutesTheXoredLanes : Prop :=
  ∀ (A B : LaneArray) (blk : Block),
    (∀ i : Fin 17, B.at ⟨i.val, by omega⟩ = A.at ⟨i.val, by omega⟩ ^^^ Block.lane blk i) →
    (∀ i : Fin 25, 17 ≤ i.val → B.at i = A.at i) → absorbBlock A blk = keccakF B

/-- R69: KECCAK256 absorbs exactly `L div 136 + 1` blocks, the message's full blocks and then its padded tail; and
"INIT, UPDATE_BYTE `M[0]` ... UPDATE_BYTE `M[L-1]`, FINALIZE leaves READ_DIGEST returning `KECCAK256(M)` byte for byte",
from any state of the engine. -/
def Obligations.CommandSequenceComputesKeccak256 : Prop :=
  ∀ M : List Byte,
    (∃ blocks : List Block, blocks.length = M.length / 136 + 1 ∧
      keccak256 M = squeeze (blocks.foldl absorbBlock .zero) ∧
      (∀ i (h : i < blocks.length), i < M.length / 136 → ∀ k : Fin 136,
        (blocks[i]'h)[k.val] = M.getD (136 * i + k.val) 0) ∧
      ∃ tail : Block, blocks.getLast? = some (pad tail (tailLength M)) ∧
        ∀ k : Fin 136, tail[k.val] = M.getD (136 * (M.length / 136) + k.val) 0) ∧
    ∀ s : State, ∃ h : Session,
      runWords (hashProgram M) (.start s) = .next (h,
        List.replicate (M.length + 2) ⟨.ok, 0⟩ ++ (keccak256 M).toList.map fun d => ⟨.ok, d⟩) ∧
      h.engine.inbox = s.inbox

/-- R69 to R71, R81: every step of the engine is the step of the message-level context it stands for. -/
def Obligations.EngineRefinesTheMessageLevelContext : Prop :=
  ∀ (a : Ideal) (s : State) (w : CommandWord), s.ctx = a.context →
    step (s.present w) = .next { s with ctx := (a.step w).1.context, response := some (a.step w).2 }

/-- Every context stands for a message: the reset context does, and every step keeps it so, from any state that stands
for one. So do the states that an engine reaches from reset, whatever the hosts issue: nothing else can be in the lanes,
BUF and CURSOR. -/
def Obligations.ReachableContextsStandForMessages : Prop :=
  State.reset.ctx = Ideal.created.context ∧
  (∀ s t : State, (∃ a : Ideal, s.ctx = a.context) → step s = .next t → ∃ b : Ideal, t.ctx = b.context) ∧
  ∀ s : State, Reachable s → ∃ a : Ideal, s.ctx = a.context

/-- R70: UPDATE in chunks leaves the context of one UPDATE with their concatenation, and so the same digest. -/
def Obligations.ChunkingDoesNotChangeTheDigest : Prop :=
  ∀ (chunks : List (List Byte)) (h : Session), h.engine.ctx.fsm = .absorbing → ∃ h1 h2 g1 g2 d,
    hostUpdateChunks chunks h = .next (h1, .done ()) ∧ hostUpdate chunks.flatten h = .next (h2, .done ()) ∧
    h1.engine.ctx = h2.engine.ctx ∧
    bindOutcome (issueOk (encode .finalize) h1) hostDigest = .next (g1, .done d) ∧
    bindOutcome (issueOk (encode .finalize) h2) hostDigest = .next (g2, .done d)

/-- R71: at a block boundary FINALIZE finds `CURSOR = 0` and absorbs padding alone; with 135 bytes left over it absorbs
one block that ends in `0x81`. -/
def Obligations.BlockBoundaryPadding : Prop :=
  (∀ M : List Byte, M.length % 136 = 0 → (Ideal.absorbing M).context.cursor = 0 ∧
    (Ideal.absorbing M).context.finalize.lanes =
      absorbBlock (absorbFull M) ((Block.zero.set 0 0x01).set 135 0x80)) ∧
  ∀ M : List Byte, M.length % 136 = 135 → ∃ blk : Block, blk[135] = 0x81 ∧
    (∀ k : Fin 136, k < 135 → blk[k.val] = M.getD (136 * (M.length / 136) + k.val) 0) ∧
    (Ideal.absorbing M).context.finalize.lanes = absorbBlock (absorbFull M) blk

/-- R72: where the permutation runs: once in an UPDATE_BYTE at `CURSOR = 135`, once in a FINALIZE that succeeds, and
nowhere else. -/
def Obligations.PermutationRunsOncePerFullBlock : Prop :=
  ∀ (s t : State) (w : CommandWord), step (s.present w) = .next t →
    (∀ b, decode w = .command (.updateByte b) → s.ctx.fsm = .absorbing → s.ctx.cursor = 135 →
      t.ctx.lanes = keccakF (xorBlock s.ctx.lanes (s.ctx.buf.set 135 b))) ∧
    (∀ b, decode w = .command (.updateByte b) → (s.ctx.fsm ≠ .absorbing ∨ s.ctx.cursor ≠ 135) →
      t.ctx.lanes = s.ctx.lanes) ∧
    (decode w = .command .finalize → s.ctx.fsm = .absorbing →
      t.ctx.lanes = keccakF (xorBlock s.ctx.lanes (pad s.ctx.buf s.ctx.cursor))) ∧
    (decode w = .command .finalize → s.ctx.fsm ≠ .absorbing → t.ctx.lanes = s.ctx.lanes) ∧
    (decode w = .command .init → t.ctx.lanes = .zero) ∧
    ((∀ b, decode w ≠ .command (.updateByte b)) → decode w ≠ .command .finalize → decode w ≠ .command .init →
      t.ctx.lanes = s.ctx.lanes)

/-! ## 42_commands.md: the commands -/

/-- R73, R21: the command at the port, if its word decodes to `i`, is run as `exec i` on the state with the command
taken; an engine with nothing issued stays as it is (R103), and the command a host then issues to it, on a platform of
any number of engines, is what its next step runs. That the port is an inbox is the model's choice,
notes/assumptions/1.md. -/
def Obligations.StepRunsTheDecodedCommand : Prop :=
  (∀ (s : State) (w : CommandWord) (rest : List HostEvent) (i : Instr), s.inbox = .command w :: rest →
    decode w = .command i → step s = exec i { s with inbox := rest }) ∧
  (∀ s : State, s.inbox = [] → step s = .next s) ∧
  (∀ (n : Nat) (p : Platform n) (k : Fin n) (w : CommandWord) (i : Instr), p.engines[k.val].inbox = [] →
    decode w = .command i → step (p.issueTo k (.command w)).engines[k.val] = exec i p.engines[k.val]) ∧
  ∀ (s : State) (i : Instr), i.wellFormed → step (s.withFetchWord 16 (encode i).toNat) = exec i s

/-- R74: INIT, in every state; its word, and the words with its opcode that are illegal. -/
def Obligations.InitCreatesAFreshContext : Prop :=
  (∀ s : State, exec .init s = .next
    { s with ctx := ⟨.zero, .zero, 0, .absorbing⟩, response := some ⟨.ok, 0x00⟩ }) ∧
  encode .init = 0x0100 ∧
  ∀ w : CommandWord, opOf w = 0x01 → imm8Of w ≠ 0x00 → decode w = .illegal .operandNotZero

/-- R75: UPDATE_BYTE, in every state and for every byte. -/
def Obligations.UpdateByteAppendsAndAbsorbs : Prop :=
  ∀ (s : State) (b : Byte), encode (.updateByte b) = 0x0200 ||| b.setWidth 16 ∧
    (s.ctx.fsm = .absorbing → s.ctx.cursor ≠ 135 → exec (.updateByte b) s = .next
      { s with
        ctx := { s.ctx with buf := s.ctx.buf.set s.ctx.cursor.val b, cursor := s.ctx.cursor + 1 }
        response := some ⟨.ok, 0x00⟩ }) ∧
    (s.ctx.fsm = .absorbing → s.ctx.cursor = 135 → exec (.updateByte b) s = .next
      { s with
        ctx := ⟨absorbBlock s.ctx.lanes (s.ctx.buf.set 135 b), .zero, 0, .absorbing⟩
        response := some ⟨.ok, 0x00⟩ }) ∧
    (s.ctx.fsm ≠ .absorbing → exec (.updateByte b) s = .next { s with response := some ⟨.errState, 0x00⟩ })

/-- R76: FINALIZE, in every state; its word, and the words with its opcode that are illegal. -/
def Obligations.FinalizeAbsorbsThePaddedBlock : Prop :=
  encode .finalize = 0x0300 ∧
  (∀ w : CommandWord, opOf w = 0x03 → imm8Of w ≠ 0x00 → decode w = .illegal .operandNotZero) ∧
  ∀ s : State,
    (s.ctx.fsm = .absorbing → exec .finalize s = .next
      { s with
        ctx := ⟨absorbBlock s.ctx.lanes (pad s.ctx.buf s.ctx.cursor), .zero, 0, .finalized⟩
        response := some ⟨.ok, 0x00⟩ }) ∧
    (s.ctx.fsm ≠ .absorbing → exec .finalize s = .next { s with response := some ⟨.errState, 0x00⟩ })

/-- R77: READ_DIGEST, in every state, for every index and every word with its opcode; "The digest stays readable until the next INIT or
reset". -/
def Obligations.ReadDigestReturnsTheDigestByte : Prop :=
  (∀ s t : State, s.ctx.fsm = .finalized → step s = .next t →
    t.ctx = s.ctx ∨ s.inbox.head? = some (.command (encode .init)) ∨ s.inbox.head? = some .reset) ∧
  ∀ (s : State) (j : Byte), encode (.readDigest j) = 0x0400 ||| j.setWidth 16 ∧
    (∀ h : j.toNat < 32, s.ctx.fsm = .finalized → exec (.readDigest j) s = .next
      { s with response := some ⟨.ok, s.ctx.lanes.stateByte ⟨j.toNat, by omega⟩⟩ }) ∧
    (j.toNat < 32 → s.ctx.fsm ≠ .finalized → exec (.readDigest j) s = .next
      { s with response := some ⟨.errState, 0x00⟩ }) ∧
    ∀ w : CommandWord, opOf w = 0x04 → 0x20 ≤ imm8Of w →
      step (s.present w) = .next { s with response := some ⟨.errIllegal, 0x00⟩ }

/-- R78: READ_STATUS, in every state, for both selectors and every word with its opcode. -/
def Obligations.ReadStatusReturnsTheSelectedField : Prop :=
  (∀ sel : Byte, encode (.readStatus sel) = 0x0500 ||| sel.setWidth 16) ∧
  ∀ s : State,
    (s.ctx.fsm = .created → exec (.readStatus 0) s = .next { s with response := some ⟨.ok, 0x00⟩ }) ∧
    (s.ctx.fsm = .absorbing → exec (.readStatus 0) s = .next { s with response := some ⟨.ok, 0x01⟩ }) ∧
    (s.ctx.fsm = .finalized → exec (.readStatus 0) s = .next { s with response := some ⟨.ok, 0x02⟩ }) ∧
    exec (.readStatus 1) s = .next { s with response := some ⟨.ok, BitVec.ofNat 8 s.ctx.cursor.val⟩ } ∧
    ∀ w : CommandWord, opOf w = 0x05 → 0x02 ≤ imm8Of w →
      step (s.present w) = .next { s with response := some ⟨.errIllegal, 0x00⟩ }

/-- A term of Instr with an operand no word carries (READ_DIGEST with 32 or more, READ_STATUS with 2 or more): no word
decodes to it, and `exec` answers ERR_ILLEGAL in every state, with no state changed. The answer is the model's choice,
notes/assumptions/5.md. -/
def Obligations.TermsOfNoWordAreIllegal : Prop :=
  (∀ i : Instr, i.wellFormed = false → ∀ w : CommandWord, decode w ≠ .command i) ∧
  ∀ (i : Instr) (s : State), i.wellFormed = false →
    exec i s = .next { s with response := some ⟨.errIllegal, 0x00⟩ }

/-- R80: the engine's whole step, as one total function of the state and the word. -/
def Obligations.WholeStepIsTotal : Prop :=
  ∀ (s : State) (w : CommandWord), step (s.present w) = .next
    (match decode w with
    | .illegal _ => { s with response := some ⟨.errIllegal, 0⟩ }
    | .command .init => { s with ctx := ⟨.zero, .zero, 0, .absorbing⟩, response := some ⟨.ok, 0⟩ }
    | .command (.updateByte b) =>
      if s.ctx.fsm ≠ .absorbing then { s with response := some ⟨.errState, 0⟩ }
      else { s with ctx := s.ctx.update b, response := some ⟨.ok, 0⟩ }
    | .command .finalize =>
      if s.ctx.fsm ≠ .absorbing then { s with response := some ⟨.errState, 0⟩ }
      else { s with ctx := s.ctx.finalize, response := some ⟨.ok, 0⟩ }
    | .command (.readDigest j) =>
      if s.ctx.fsm ≠ .finalized then { s with response := some ⟨.errState, 0⟩ }
      else { s with response := some ⟨.ok, s.ctx.lanes.stateByte (Fin.ofNat 200 j.toNat)⟩ }
    | .command (.readStatus sel) =>
      { s with response := some ⟨.ok, if sel = 0 then s.ctx.fsm.code.setWidth 8 else s.ctx.cursorByte⟩ })

/-- R81: which commands are accepted in which state, and the state they leave. -/
def Obligations.AcceptanceTable : Prop :=
  ∀ (s : State) (w : CommandWord), ∃ t r, step (s.present w) = .next t ∧ t.response = some r ∧
    (decode w = .command .init → t.ctx = .fresh) ∧ (r.code, t.ctx.fsm) =
      match decode w, s.ctx.fsm with
      | .command .init, _ => (.ok, .absorbing)
      | .command (.updateByte _), .absorbing => (.ok, .absorbing)
      | .command (.updateByte _), f => (.errState, f)
      | .command .finalize, .absorbing => (.ok, .finalized)
      | .command .finalize, f => (.errState, f)
      | .command (.readDigest _), .finalized => (.ok, .finalized)
      | .command (.readDigest _), f => (.errState, f)
      | .command (.readStatus _), f => (.ok, f)
      | .illegal _, f => (.errIllegal, f)

/-! ## 42_commands.md: the host operations -/

/-- R82: UPDATE, for every chunk and in every state; it is all or nothing. -/
def Obligations.HostUpdateIsAllOrNothing : Prop :=
  ∀ (data : List Byte) (h : Session),
    (data ≠ [] → h.engine.ctx.fsm = .absorbing → ∃ h', hostUpdate data h = .next (h', .done ()) ∧
      h'.engine.ctx = data.foldl Context.update h.engine.ctx ∧ h'.engine.inbox = h.engine.inbox ∧
      h'.issued = h.issued ++ data.map fun b => encode (.updateByte b)) ∧
    (data ≠ [] → h.engine.ctx.fsm ≠ .absorbing → ∃ h', hostUpdate data h = .next (h', .raised .stateError) ∧
      h'.engine.ctx = h.engine.ctx ∧ h'.issued = h.issued ++ (data.take 1).map fun b => encode (.updateByte b)) ∧
    (data = [] → ∃ h', hostUpdate data h = .next (h',
        if h.engine.ctx.fsm = .absorbing then .done () else .raised .stateError) ∧
      h'.engine.ctx = h.engine.ctx ∧ h'.issued = h.issued ++ [encode (.readStatus 0)])

/-- R83: DIGEST reads the 32 digest bytes in order in FINALIZED; elsewhere its first READ_DIGEST fails. -/
def Obligations.HostDigestReadsAllBytes : Prop :=
  ∀ h : Session,
    (h.engine.ctx.fsm = .finalized → ∃ h', hostDigest h = .next (h', .done (squeeze h.engine.ctx.lanes).toList) ∧
      h'.engine.ctx = h.engine.ctx ∧ h'.issued = h.issued ++ digestIndices.map fun j => encode (.readDigest j)) ∧
    (h.engine.ctx.fsm ≠ .finalized → ∃ h', hostDigest h = .next (h', .raised .stateError) ∧
      h'.engine.ctx = h.engine.ctx ∧ h'.issued = h.issued ++ [encode (.readDigest 0)])

/-- R84, R30: in range, KECCAK256 returns the digest of the slice, by `length + 34` commands, each OK, and reads
exactly the slice's bytes, once each, in increasing order; whatever the engine held before, and whatever width the host
holds its indices in. Out of range, it is InvalidArgument, and nothing happens. A non-OK response inside the expansion is
a fault of the host operation. -/
def Obligations.HostKeccak256HashesTheSlice : Prop :=
  (∀ (input : List Byte) (start length : Nat) (h : Session), start + length ≤ input.length → ∃ h',
    hostKeccak256 input start length h =
      .next (h', .done (keccak256 ((input.drop start).take length)).toList) ∧
    h'.issued = h.issued ++ hashProgram ((input.drop start).take length) ∧
    h'.issued.length = h.issued.length + (length + 34) ∧
    h'.inputRead = h.inputRead ++ List.range' start length ∧
    ∀ (w : Nat) (i n : BitVec w), i.toNat = start → n.toNat = length →
      hostKeccak256AtWidth input i n h = hostKeccak256 input start length h) ∧
  (∀ (input : List Byte) (start length : Nat) (h : Session), input.length < start + length →
    hostKeccak256 input start length h = .next (h, .raised .invalidArgument)) ∧
  ∀ (w : CommandWord) (h : Session) (p : Session × Response), issue w h = .next p → p.2.code ≠ .ok →
    issueOk w h = .fault .hostProtocol

/-- R92: out of range, KECCAK256 raises InvalidArgument before any command is issued or any byte is read, and the sum
does not wrap. -/
def Obligations.OutOfRangeInputIsInvalidArgument : Prop :=
  ∀ (input : List Byte) (start length : Nat) (h : Session),
    (input.length < start + length → hostKeccak256 input start length h = .next (h, .raised .invalidArgument)) ∧
    ∀ (w : Nat) (i n : BitVec w), input.length < i.toNat + n.toNat →
      hostKeccak256AtWidth input i n h = .next (h, .raised .invalidArgument)

/-! ## 60_exceptions.md: errors -/

/-- R90: StateError, in each of the commands and host operations that raise it. -/
def Obligations.StateErrorIsRaisedByTheLifecycle : Prop :=
  (∀ (s : State) (b : Byte), s.ctx.fsm ≠ .absorbing →
    step (s.present (encode (.updateByte b))) = .next { s with response := some ⟨.errState, 0x00⟩ }) ∧
  (∀ s : State, s.ctx.fsm ≠ .absorbing →
    step (s.present (encode .finalize)) = .next { s with response := some ⟨.errState, 0x00⟩ }) ∧
  (∀ (s : State) (j : Byte), j < 32 → s.ctx.fsm ≠ .finalized →
    step (s.present (encode (.readDigest j))) = .next { s with response := some ⟨.errState, 0x00⟩ }) ∧
  (∀ (data : List Byte) (h : Session), h.engine.ctx.fsm ≠ .absorbing →
    ∃ h', hostUpdate data h = .next (h', .raised .stateError)) ∧
  ∀ h : Session, h.engine.ctx.fsm ≠ .finalized → ∃ h', hostDigest h = .next (h', .raised .stateError)

/-- R93: a rejected command or host operation leaves every piece of state as it was, and the engine takes the next
command at once. -/
def Obligations.RejectionLeavesTheContextUnchanged : Prop :=
  (∀ (s t : State) (w : CommandWord) (r : Response), step (s.present w) = .next t → t.response = some r →
    r.code ≠ .ok → t.ctx = s.ctx ∧ t.inbox = s.inbox ∧ r.data = 0 ∧
    ∀ v : CommandWord, step (t.present v) = step (s.present v)) ∧
  (∀ (data : List Byte) (h h' : Session) (e : HostError), hostUpdate data h = .next (h', .raised e) →
    h'.engine.ctx = h.engine.ctx) ∧
  (∀ (h h' : Session) (e : HostError), hostDigest h = .next (h', .raised e) → h'.engine.ctx = h.engine.ctx) ∧
  ∀ (input : List Byte) (start length : Nat) (h h' : Session) (e : HostError),
    hostKeccak256 input start length h = .next (h', .raised e) → h' = h

/-- R94: exactly one error is reported: InvalidArgument before any command, IllegalCommand before StateError. -/
def Obligations.ErrorsAreReportedInPriorityOrder : Prop :=
  (∀ (input : List Byte) (start length : Nat) (h h' : Session) (e : HostError),
    hostKeccak256 input start length h = .next (h', .raised e) → e = .invalidArgument ∧ h'.issued = h.issued) ∧
  ∀ (s t : State) (w : CommandWord) (r : Response), step (s.present w) = .next t → t.response = some r →
    (r.code = .errIllegal ↔ ∃ why, decode w = .illegal why) ∧
    (r.code = .errState ↔
      (∃ b, decode w = .command (.updateByte b) ∧ s.ctx.fsm ≠ .absorbing) ∨
      (decode w = .command .finalize ∧ s.ctx.fsm ≠ .absorbing) ∨
      ∃ j, decode w = .command (.readDigest j) ∧ s.ctx.fsm ≠ .finalized)

/-- R104, R38: a digest is claimed only for an exclusive owner; for one it is the digest of the message the owner's own
words gave, as if nobody else had been there. Otherwise the claim is refused. (When exclusive ownership begins and ends
is the model's choice, notes/assumptions/8.md.) -/
def Obligations.DigestClaimsNeedExclusiveOwnership : Prop :=
  ∀ (h : HostId) (trace : List Tagged) (s : State),
    (exclusiveOwner trace ≠ some h → claimDigest h trace s = .refused .sharedContext) ∧
    (exclusiveOwner trace = some h → Ideal.after (trace.map Tagged.word) = Ideal.after (wordsOf h trace) ∧
      ∃ g, claimDigest h trace s = .next (g,
        match Ideal.after (wordsOf h trace) with
        | .finalized M => .done (keccak256 M).toList
        | _ => .raised .stateError))

/-! ## 70_reset_and_hazards.md -/

/-- R106: reset and INIT differ in FSM alone; in CREATED only INIT, READ_STATUS and illegal words get a response other
than ERR_STATE. -/
def Obligations.ResetAndInitDifferInFsmAlone : Prop :=
  (∀ (s t u : State) (rest : List HostEvent), step { s with inbox := .reset :: rest } = .next t →
    step { s with inbox := .command (encode .init) :: rest } = .next u →
    t.ctx.fsm = .created ∧ u.ctx.fsm = .absorbing ∧ u.ctx = { t.ctx with fsm := .absorbing }) ∧
  ∀ (s t : State) (w : CommandWord) (r : Response), s.ctx.fsm = .created → step (s.present w) = .next t →
    t.response = some r → (r.code ≠ .errState ↔
      decode w = .command .init ∨ (∃ sel, decode w = .command (.readStatus sel)) ∨ ∃ why, decode w = .illegal why)

/-- R114: every step of every state completes, and a complete hash takes `length + 34` commands. -/
def Obligations.EveryCommandTerminates : Prop :=
  (∀ s : State, NeverStops s) ∧ (∀ (i : Instr) (s : State), ∃ t, exec i s = .next t) ∧
  ∀ M : List Byte, (hashProgram M).length = M.length + 34
end

