-- ==== Sys2Proof/Laws/Encoding.lean ====
section
/-! SUPPORT. The two fields of a command word, and the words as pairs of them (spec 30_encoding.md rule R41). -/

namespace Sys2Proof

@[simp] theorem opOf_commandWord (op imm : Byte) : opOf (commandWord op imm) = op := by
  apply BitVec.eq_of_getLsbD_eq
  intro i hi
  unfold commandWord opOf
  simp only [BitVec.getLsbD_extractLsb']
  erw [BitVec.getLsbD_append]
  simp [hi]

@[simp] theorem imm8Of_commandWord (op imm : Byte) : imm8Of (commandWord op imm) = imm := by
  apply BitVec.eq_of_getLsbD_eq
  intro i hi
  unfold commandWord imm8Of
  simp only [BitVec.getLsbD_extractLsb']
  erw [BitVec.getLsbD_append]
  simp [hi]

/-- A word is its two fields: no bit is in neither (R41). -/
theorem commandWord_fields (w : CommandWord) : commandWord (opOf w) (imm8Of w) = w := by
  apply BitVec.eq_of_getLsbD_eq
  intro i hi
  unfold commandWord opOf imm8Of
  erw [BitVec.getLsbD_append]
  by_cases h : i < 8
  · simp [h]
  · simp [h]
    rw [show 8 + (i - 8) = i by omega]
    simp
    omega

/-- Two words are equal exactly if their fields are. -/
theorem commandWord_inj (a b c d : Byte) : commandWord a b = commandWord c d ↔ a = c ∧ b = d := by
  constructor
  · intro h
    exact ⟨by simpa using congrArg opOf h, by simpa using congrArg imm8Of h⟩
  · rintro ⟨rfl, rfl⟩
    rfl

/-- Masking a word masks its fields. -/
theorem commandWord_and (a b c d : Byte) :
    commandWord a b &&& commandWord c d = commandWord (a &&& c) (b &&& d) := BitVec.and_append

/-- A row of the opcode map, field by field (R45). -/
theorem commandWord_masked (op imm maskOp maskImm patOp patImm : Byte) :
    commandWord op imm &&& commandWord maskOp maskImm = commandWord patOp patImm ↔
      op &&& maskOp = patOp ∧ imm &&& maskImm = patImm := by
  rw [commandWord_and, commandWord_inj]

end Sys2Proof
end

