-- ==== Sys2Proof/Laws/Lanes.lean ====
section
/-! SUPPORT. The lane array through its accessors: reading what was built or written, and extensionality. -/

namespace Sys2Proof.Machine

@[simp] theorem Row.get_ofX (f : Fin 5 → Lane) (x : Fin 5) : (Row.ofX f).get x = f x := by
  fin_cases x <;> rfl

@[simp] theorem LaneArray.row_ofRows (f : Fin 5 → Row) (y : Fin 5) : (LaneArray.ofRows f).row y = f y := by
  fin_cases y <;> rfl

@[simp] theorem LaneArray.lane_ofXY (f : Fin 5 → Fin 5 → Lane) (x y : Fin 5) : (LaneArray.ofXY f).lane x y = f x y := by
  simp [LaneArray.lane, LaneArray.ofXY]

theorem Row.ext_get {r q : Row} (h : ∀ x, r.get x = q.get x) : r = q := by
  cases r; cases q
  have h0 := h 0; have h1 := h 1; have h2 := h 2; have h3 := h 3; have h4 := h 4
  simp_all [Row.get]

/-- Two lane arrays with the same 25 lanes are equal. -/
theorem LaneArray.ext_lane {A B : LaneArray} (h : ∀ x y, A.lane x y = B.lane x y) : A = B := by
  have hr : ∀ y, A.row y = B.row y := fun y => Row.ext_get fun x => h x y
  cases A; cases B
  have h0 := hr 0; have h1 := hr 1; have h2 := hr 2; have h3 := hr 3; have h4 := hr 4
  simp_all [LaneArray.row]

@[simp] theorem Row.get_set (r : Row) (x x' : Fin 5) (v : Lane) :
    (r.set x v).get x' = if x' = x then v else r.get x' := by
  simp [Row.set]

/-- A lane reads as written, and every other lane as before. -/
@[simp] theorem LaneArray.lane_setLane (A : LaneArray) (x y x' y' : Fin 5) (v : Lane) :
    (A.setLane x y v).lane x' y' = if x' = x ∧ y' = y then v else A.lane x' y' := by
  by_cases hy : y' = y <;> by_cases hx : x' = x <;> simp [LaneArray.setLane, LaneArray.lane, hx, hy]

@[simp] theorem Row.get_zero (x : Fin 5) : Row.zero.get x = 0 := by fin_cases x <;> rfl

@[simp] theorem LaneArray.row_zero (y : Fin 5) : LaneArray.zero.row y = .zero := by fin_cases y <;> rfl

@[simp] theorem LaneArray.lane_zero (x y : Fin 5) : LaneArray.zero.lane x y = 0 := by simp [LaneArray.lane]

@[simp] theorem xOfIndex_laneIndex (x y : Fin 5) : xOfIndex (laneIndex x y) = x := by
  simp only [xOfIndex, laneIndex, Fin.ext_iff]; omega

@[simp] theorem yOfIndex_laneIndex (x y : Fin 5) : yOfIndex (laneIndex x y) = y := by
  simp only [yOfIndex, laneIndex, Fin.ext_iff]; omega

@[simp] theorem laneIndex_of_index (i : Fin 25) : laneIndex (xOfIndex i) (yOfIndex i) = i := by
  simp only [xOfIndex, yOfIndex, laneIndex, Fin.ext_iff]; omega

/-- `A[x, y]` and `A[x + 5*y]` name one lane (R11). -/
@[simp] theorem LaneArray.at_laneIndex (A : LaneArray) (x y : Fin 5) : A.at (laneIndex x y) = A.lane x y := by
  simp [LaneArray.at]

theorem LaneArray.ext_at {A B : LaneArray} (h : ∀ i, A.at i = B.at i) : A = B :=
  LaneArray.ext_lane fun x y => by simpa using h (laneIndex x y)

theorem LaneArray.at_ofXY (f : Fin 5 → Fin 5 → Lane) (i : Fin 25) :
    (LaneArray.ofXY f).at i = f (xOfIndex i) (yOfIndex i) := by
  simp [LaneArray.at]

@[simp] theorem LaneArray.at_zero (i : Fin 25) : LaneArray.zero.at i = 0 := by simp [LaneArray.at]

end Sys2Proof.Machine
end

