-- ==== Sys2Proof/Laws/Words.lean ====
section
/-! SUPPORT. The word primitives bit by bit, vectors that are tabulated, blocks, and the response word. -/

namespace Sys2Proof.Machine

@[simp] theorem tabulate_getElem {α : Type} (n : Nat) (f : Nat → α) (k : Nat) (h : k < n) :
    (tabulate n f)[k] = f k := by
  simp [tabulate]

@[simp] theorem tabulate_toList {α : Type} (n : Nat) (f : Nat → α) : (tabulate n f).toList = (List.range n).map f := rfl

@[simp] theorem byteOf_getLsbD (v : Lane) (k i : Nat) :
    (byteOf v k).getLsbD i = (decide (i < 8) && v.getLsbD (8 * k + i)) := by
  have h : (0xFF#64).getLsbD i = decide (i < 8) := by
    by_cases hi : i < 64
    · have : ∀ j : Fin 64, (0xFF#64).getLsbD j.val = decide (j.val < 8) := by decide
      exact this ⟨i, hi⟩
    · have : ¬ i < 8 := by omega
      simp [this, BitVec.getLsbD_of_ge _ _ (Nat.le_of_not_lt hi)]
  have h' : v.getLsbD (8 * k + i) = (v >>> (8 * k)).getLsbD i := by simp
  rw [h']
  simp only [byteOf, BitVec.getLsbD_setWidth, BitVec.getLsbD_and]
  change (decide (i < 8) && ((v >>> (8 * k)).getLsbD i && (0xFF#64).getLsbD i)) = _
  rw [h]
  by_cases hi : i < 8 <;> simp [hi]

/-- `BYTE(v, k)` is the field `v[8k+7 : 8k]` (R12). -/
theorem byteOf_eq_extract (v : Lane) (k : Nat) : byteOf v k = v.extractLsb' (8 * k) 8 := by
  apply BitVec.eq_of_getLsbD_eq
  intro i hi
  rw [byteOf_getLsbD]
  simp [hi]

@[simp] theorem Block.zero_getElem (k : Nat) (h : k < 136) : (Block.zero)[k] = 0 := by simp [Block.zero]

@[simp] theorem Block.ofBytes_getElem (l : List Byte) (k : Nat) (h : k < 136) : (Block.ofBytes l)[k] = l.getD k 0 := by
  simp [Block.ofBytes]

/-- The three fields of a response word (R43). -/
theorem Response.word_fields : ∀ (c : RspCode) (d : Byte), (Response.word ⟨c, d⟩).extractLsb' 10 6 = 0 ∧
    (Response.word ⟨c, d⟩).extractLsb' 8 2 = c.code ∧ (Response.word ⟨c, d⟩).extractLsb' 0 8 = d := by
  intro c
  cases c <;> decide +kernel

/-- What a host reads from a response word is the response (R43). -/
@[simp] theorem Response.ofWord_word (r : Response) : Response.ofWord r.word = .next r := by
  obtain ⟨code, data⟩ := r
  obtain ⟨hz, hc, hd⟩ := Response.word_fields code data
  cases code <;> simp [Response.ofWord, hd, hc, hz, RspCode.code]

end Sys2Proof.Machine
end

