-- ==== Sys2Proof/Laws/Sponge.lean ====
section
/-! SUPPORT. The padded block byte by byte, absorption lane by lane, and what UPDATE_BYTE and FINALIZE do to the
context, said once. -/

namespace Sys2Proof.Machine

/-- A byte of the padded block: the buffered byte, with `0x01` XORed in at CURSOR and `0x80` at 135 (R66). -/
theorem pad_getElem (buf : Block) (cursor : Fin 136) (k : Nat) (h : k < 136) :
    (pad buf cursor)[k] = (buf[k] ^^^ if cursor.val = k then 0x01 else 0x00) ^^^ if 135 = k then 0x80 else 0x00 := by
  by_cases h1 : cursor.val = k <;> by_cases h2 : 135 = k <;>
    simp_all [pad, Vector.getElem_set, Config.padFirst, Config.padLast]

/-- A lane after the XOR of a block (R67). -/
theorem xorBlock_lane (A : LaneArray) (blk : Block) (x y : Fin 5) :
    (xorBlock A blk).lane x y = if h : (laneIndex x y).val < 17
      then A.lane x y ^^^ Block.lane blk ⟨(laneIndex x y).val, h⟩ else A.lane x y := by
  simp [xorBlock]

/-- The same by lane index: lanes `0..16` take the block's lanes, lanes `17..24` stay. -/
theorem xorBlock_at (A : LaneArray) (blk : Block) (i : Fin 25) :
    (xorBlock A blk).at i = if h : i.val < 17 then A.at i ^^^ Block.lane blk ⟨i.val, h⟩ else A.at i := by
  have h := xorBlock_lane A blk (xOfIndex i) (yOfIndex i)
  simp only [laneIndex_of_index] at h
  exact h

@[simp] theorem Context.update_fsm (c : Context) (b : Byte) : (c.update b).fsm = c.fsm := by
  unfold Context.update
  split <;> rfl

/-- UPDATE_BYTE below the last byte of a block: BUF and CURSOR alone change (R75). -/
theorem Context.update_of_ne {c : Context} (h : c.cursor ≠ 135) (b : Byte) :
    c.update b = { c with buf := c.buf.set c.cursor.val b, cursor := c.cursor + 1 } := if_neg h

/-- UPDATE_BYTE of the 136th byte of a block (R75). -/
theorem Context.update_of_eq {c : Context} (h : c.cursor = 135) (b : Byte) :
    c.update b = { c with lanes := absorbBlock c.lanes (c.appended b), buf := .zero, cursor := 0 } := if_pos h

@[simp] theorem Context.finalize_fsm (c : Context) : c.finalize.fsm = .finalized := rfl
@[simp] theorem Context.finalize_buf (c : Context) : c.finalize.buf = .zero := rfl
@[simp] theorem Context.finalize_cursor (c : Context) : c.finalize.cursor = 0 := rfl
@[simp] theorem Context.finalize_lanes (c : Context) :
    c.finalize.lanes = absorbBlock c.lanes (pad c.buf c.cursor) := rfl

end Sys2Proof.Machine
end

