-- ==== Sys2Proof/Laws/State.lean ====
section
/-! SUPPORT. One lemma per field per update of State and Context, and what each way of ending a command answers. -/

namespace Sys2Proof.Machine

variable (s t : State) (c : Context) (r : Response) (w : CommandWord) (rest : List HostEvent)

@[simp] theorem State.present_ctx : (s.present w).ctx = s.ctx := rfl
@[simp] theorem State.present_response : (s.present w).response = s.response := rfl
@[simp] theorem State.present_inbox : (s.present w).inbox = .command w :: s.inbox := rfl

@[simp] theorem State.taken_ctx : (s.taken rest).ctx = s.ctx := rfl
@[simp] theorem State.taken_response : (s.taken rest).response = s.response := rfl
@[simp] theorem State.taken_inbox : (s.taken rest).inbox = rest := rfl
@[simp] theorem State.taken_present : (s.present w).taken s.inbox = s := rfl

@[simp] theorem State.hardwareReset_ctx : s.hardwareReset.ctx = .reset := rfl
@[simp] theorem State.hardwareReset_response : s.hardwareReset.response = none := rfl
@[simp] theorem State.hardwareReset_inbox : s.hardwareReset.inbox = s.inbox := rfl

@[simp] theorem State.reset_ctx : State.reset.ctx = .reset := rfl
@[simp] theorem State.reset_response : State.reset.response = none := rfl
@[simp] theorem State.reset_inbox : State.reset.inbox = [] := rfl

@[simp] theorem Context.reset_lanes : Context.reset.lanes = .zero := rfl
@[simp] theorem Context.reset_buf : Context.reset.buf = .zero := rfl
@[simp] theorem Context.reset_cursor : Context.reset.cursor = 0 := rfl
@[simp] theorem Context.reset_fsm : Context.reset.fsm = .created := rfl

@[simp] theorem Context.fresh_lanes : Context.fresh.lanes = .zero := rfl
@[simp] theorem Context.fresh_buf : Context.fresh.buf = .zero := rfl
@[simp] theorem Context.fresh_cursor : Context.fresh.cursor = 0 := rfl
@[simp] theorem Context.fresh_fsm : Context.fresh.fsm = .absorbing := rfl

/-- A response changes the context and the response port, and nothing else. -/
theorem State.respond_eq : s.respond c r = .next { s with ctx := c, response := some r } := rfl

/-- A raised error changes the response port alone (R93). -/
theorem State.raiseError_eq (code : RspCode) :
    s.raiseError code = .next { s with response := some ⟨code, 0⟩ } := rfl

theorem State.raiseStateError_eq : s.raiseStateError = .next { s with response := some ⟨.errState, 0⟩ } := rfl

theorem State.raiseIllegalCommand_eq :
    s.raiseIllegalCommand = .next { s with response := some ⟨.errIllegal, 0⟩ } := rfl

/-- The lifecycle check lets the body run in the state it needs. -/
theorem State.requireFsm_of_eq {need : Fsm} {body : Host.Outcome State Fault Refusal} (h : s.ctx.fsm = need) :
    s.requireFsm need body = body := if_pos h

/-- In any other state the lifecycle check raises StateError. -/
theorem State.requireFsm_of_ne {need : Fsm} {body : Host.Outcome State Fault Refusal} (h : s.ctx.fsm ≠ need) :
    s.requireFsm need body = s.raiseStateError := if_neg h

end Sys2Proof.Machine
end

