-- ==== Sys2Proof/Laws/Step.lean ====
section
/-! SUPPORT. What a step can do, said once: a command is a function of the hash context alone, and a step is one of four
cases. Later proofs cite `step_present`, `step_cases` and `issue_eq` instead of unfolding the step. -/

namespace Sys2Proof.Machine

/-- The context and the response that a command leaves, from the context alone. -/
def Context.answer (c : Context) : Instr → Context × Response
  | .init => (.fresh, ⟨.ok, 0⟩)
  | .updateByte b => if c.fsm = .absorbing then (c.update b, ⟨.ok, 0⟩) else (c, ⟨.errState, 0⟩)
  | .finalize => if c.fsm = .absorbing then (c.finalize, ⟨.ok, 0⟩) else (c, ⟨.errState, 0⟩)
  | .readDigest j =>
    match digestIndex j with
    | some k => (c, if c.fsm = .finalized then ⟨.ok, digestByte c.lanes k⟩ else ⟨.errState, 0⟩)
    | none => (c, ⟨.errIllegal, 0⟩)
  | .readStatus sel =>
    match statusSelector sel with
    | some field => (c, ⟨.ok, c.statusByte field⟩)
    | none => (c, ⟨.errIllegal, 0⟩)

/-- The context and the response that a command word leaves. -/
def Context.answerWord (c : Context) (w : CommandWord) : Context × Response :=
  match decode w with
  | .command i => c.answer i
  | .illegal _ => (c, ⟨.errIllegal, 0⟩)

/-- Every command completes, and changes the context and the response port alone. -/
theorem exec_eq_answer (i : Instr) (s : State) :
    exec i s = .next { s with ctx := (s.ctx.answer i).1, response := some (s.ctx.answer i).2 } := by
  cases i with
  | init => rfl
  | updateByte b => by_cases h : s.ctx.fsm = .absorbing <;>
      simp [exec, execUpdateByte, State.requireFsm, Context.answer, h, State.respond, State.raiseStateError_eq]
  | finalize => by_cases h : s.ctx.fsm = .absorbing <;>
      simp [exec, execFinalize, State.requireFsm, Context.answer, h, State.respond, State.raiseStateError_eq]
  | readDigest j =>
    cases hj : digestIndex j <;> by_cases h : s.ctx.fsm = .finalized <;>
      simp [exec, execReadDigest, State.requireFsm, Context.answer, h, hj, State.respond, State.raiseStateError_eq,
        State.raiseIllegalCommand_eq]
  | readStatus sel =>
    cases hj : statusSelector sel <;>
      simp [exec, execReadStatus, Context.answer, hj, State.respond, State.raiseIllegalCommand_eq]

theorem executeWord_eq (w : CommandWord) (s : State) :
    executeWord w s = .next { s with ctx := (s.ctx.answerWord w).1, response := some (s.ctx.answerWord w).2 } := by
  unfold executeWord Context.answerWord
  cases decode w with
  | command i => exact exec_eq_answer i s
  | illegal _ => rfl

/-- A step on a presented command. -/
theorem step_present (s : State) (w : CommandWord) :
    step (s.present w) = .next { s with ctx := (s.ctx.answerWord w).1, response := some (s.ctx.answerWord w).2 } :=
  executeWord_eq w s

/-- Everything a step can do: stay idle, take a reset, or take a command. -/
theorem step_cases {s t : State} (h : step s = .next t) :
    (s.inbox = [] ∧ t = s) ∨
    (∃ rest, s.inbox = .reset :: rest ∧ t = ⟨.reset, none, rest⟩) ∨
    (∃ w rest, s.inbox = .command w :: rest ∧ t = ⟨(s.ctx.answerWord w).1, some (s.ctx.answerWord w).2, rest⟩) := by
  obtain ⟨c, r, inbox⟩ := s
  match inbox with
  | [] => left; exact ⟨rfl, by injection h with h; exact h.symm⟩
  | .reset :: rest => right; left; exact ⟨rest, rfl, by injection h with h; exact h.symm⟩
  | .command w :: rest =>
    right; right
    refine ⟨w, rest, rfl, ?_⟩
    have h' : executeWord w ⟨c, r, rest⟩ = .next t := h
    rw [executeWord_eq] at h'
    injection h' with h'
    exact h'.symm

/-- The engine after a command word. -/
def State.afterWord (s : State) (w : CommandWord) : State :=
  { s with ctx := (s.ctx.answerWord w).1, response := some (s.ctx.answerWord w).2 }

@[simp] theorem State.afterWord_ctx (s : State) (w : CommandWord) : (s.afterWord w).ctx = (s.ctx.answerWord w).1 := rfl
@[simp] theorem State.afterWord_inbox (s : State) (w : CommandWord) : (s.afterWord w).inbox = s.inbox := rfl
@[simp] theorem State.afterWord_response (s : State) (w : CommandWord) :
    (s.afterWord w).response = some (s.ctx.answerWord w).2 := rfl

/-- A host that issues a command gets its response and leaves what else is at the port. -/
theorem issue_eq (w : CommandWord) (h : Session) :
    issue w h = .next (⟨h.engine.afterWord w, h.issued ++ [w], h.inputRead⟩, (h.engine.ctx.answerWord w).2) := by
  simp [issue, step_present, bindOutcome, receive, State.afterWord]

end Sys2Proof.Machine
end

