-- ==== Sys2Proof/Laws/HostOps.lean ====
section
/-! SUPPORT. Whole command sequences: a program's engine state and responses as folds of `Context.answerWord`, and the
loops of the host operations on an engine that accepts their commands. -/

namespace Sys2Proof.Machine

/-- The engine after a sequence of command words. -/
def State.afterWords (s : State) (ws : List CommandWord) : State := ws.foldl State.afterWord s

/-- The responses to a sequence of command words. -/
def Context.responses : Context → List CommandWord → List Response
  | _, [] => []
  | c, w :: ws => (c.answerWord w).2 :: Context.responses (c.answerWord w).1 ws

@[simp] theorem State.afterWords_nil (s : State) : s.afterWords [] = s := rfl
@[simp] theorem State.afterWords_cons (s : State) (w : CommandWord) (ws : List CommandWord) :
    s.afterWords (w :: ws) = (s.afterWord w).afterWords ws := rfl

@[simp] theorem State.afterWords_inbox (s : State) (ws : List CommandWord) : (s.afterWords ws).inbox = s.inbox := by
  induction ws generalizing s with
  | nil => rfl
  | cons w ws ih => exact ih _

/-- A program always runs to its end, with one response for each word. -/
theorem runWords_eq (ws : List CommandWord) (h : Session) :
    runWords ws h =
      .next (⟨h.engine.afterWords ws, h.issued ++ ws, h.inputRead⟩, h.engine.ctx.responses ws) := by
  induction ws generalizing h with
  | nil => simp [runWords, Context.responses]
  | cons w ws ih => simp [runWords, bindOutcome, issue_eq, ih, Context.responses]

theorem Context.responses_append (s : State) (xs ys : List CommandWord) :
    s.ctx.responses (xs ++ ys) = s.ctx.responses xs ++ (s.afterWords xs).ctx.responses ys := by
  induction xs generalizing s with
  | nil => rfl
  | cons w ws ih => exact congrArg _ (ih (s.afterWord w))

/-- The word of an UPDATE_BYTE, on a context that accepts it. -/
theorem Context.answerWord_updateByte {c : Context} (h : c.fsm = .absorbing) (b : Byte) :
    c.answerWord (encode (.updateByte b)) = (c.update b, ⟨.ok, 0⟩) := by
  have hd : decode (encode (.updateByte b)) = .command (.updateByte b) := by
    revert b
    decide +kernel
  simp [Context.answerWord, hd, Context.answer, h]

/-- The loop of UPDATE on a context that accepts it: every byte is issued and appended, in order (R82). -/
theorem feedBytes_absorbing (data : List Byte) (h : Session) (hf : h.engine.ctx.fsm = .absorbing) :
    feedBytes data h = .next (⟨h.engine.afterWords (data.map fun b => encode (.updateByte b)),
      h.issued ++ data.map (fun b => encode (.updateByte b)), h.inputRead⟩, .done ()) := by
  induction data generalizing h with
  | nil => simp [feedBytes]
  | cons b bs ih =>
    simp only [feedBytes, issue_eq, bindOutcome, Context.answerWord_updateByte hf, if_true]
    rw [ih _ (by simp [Context.answerWord_updateByte hf, hf])]
    simp

/-- The context after a sequence of UPDATE_BYTEs that it accepts. -/
theorem State.afterWords_updates (data : List Byte) (s : State) (hf : s.ctx.fsm = .absorbing) :
    (s.afterWords (data.map fun b => encode (.updateByte b))).ctx = data.foldl Context.update s.ctx := by
  induction data generalizing s with
  | nil => rfl
  | cons b bs ih =>
    rw [List.map_cons, State.afterWords_cons, ih _ (by simp [Context.answerWord_updateByte hf, hf])]
    simp [Context.answerWord_updateByte hf]

end Sys2Proof.Machine
end

