-- ==== Sys2Proof/Laws/PerInstr.lean ====
section
/-! SUPPORT. What holds of every instruction as syntax, one lemma per constructor. -/

namespace Sys2Proof.Laws.EncodedFields

/-- The word of a command carries its opcode in `CMD[15:8]` and its operand in `CMD[7:0]`, whatever the operand
(30_encoding.md rules R41, R44). -/
def Statement (i : Instr) : Prop := opOf (encode i) = i.opcode ∧ imm8Of (encode i) = i.operand

theorem init : Statement .init := ⟨opOf_commandWord _ _, imm8Of_commandWord _ _⟩

theorem updateByte (b : Byte) : Statement (.updateByte b) := ⟨opOf_commandWord _ _, imm8Of_commandWord _ _⟩

theorem finalize : Statement .finalize := ⟨opOf_commandWord _ _, imm8Of_commandWord _ _⟩

theorem readDigest (j : Byte) : Statement (.readDigest j) := ⟨opOf_commandWord _ _, imm8Of_commandWord _ _⟩

theorem readStatus (sel : Byte) : Statement (.readStatus sel) := ⟨opOf_commandWord _ _, imm8Of_commandWord _ _⟩

end Sys2Proof.Laws.EncodedFields
end

