-- ==== Sys2Proof/Tests/Slice0.lean ====
section
/-! SUPPORT. The model's own tests: expected values come from the spec (95_test_vectors.md, the V- numbers) or are
written out from its encodings. Then one witness theorem for each statement with hypotheses. -/

open Sys2Proof Sys2Proof.Machine

namespace Sys2Proof.Tests

/-! ## Small states -/

/-- The next state, if there is one. -/
def stateOf (o : Host.Outcome State Fault Refusal) : Option State :=
  match o with
  | .next t => some t
  | _ => none

/-- ABSORBING with zero lanes, a zero buffer and CURSOR `c`. -/
def absorbingAt (c : Fin 136) : State := { State.reset with ctx := ⟨.zero, .zero, c, .absorbing⟩ }

/-- FINALIZED with lane 0 as after "abc" (95_test_vectors.md, section 2.5) and the other lanes zero. -/
def finalizedAbc : State :=
  { State.reset with ctx := ⟨LaneArray.zero.setLane 0 0 0x4FA945EA7A65034E, .zero, 0, .finalized⟩ }

/-- The message "abc". -/
def abc : List Byte := [0x61, 0x62, 0x63]

/-- Bytes as one number, first byte most significant: how the spec writes a digest. -/
def bigEndian (l : List Byte) : Nat := l.foldl (fun v b => 256 * v + b.toNat) 0

/-! ## WellFormed -/

theorem test_wellFormed_readDigest_31 : (Instr.readDigest 31).wellFormed = true := by decide
theorem test_wellFormed_refuses_readDigest_32 : (Instr.readDigest 32).wellFormed = false := by decide
theorem test_wellFormed_readStatus_1 : (Instr.readStatus 1).wellFormed = true := by decide
theorem test_wellFormed_refuses_readStatus_2 : (Instr.readStatus 2).wellFormed = false := by decide

/-! ## Decode: words written out bit by bit from the rows of R45 -/

theorem test_decode_init : decode 0b0000000100000000 = .command .init := by decide
theorem test_decode_updateByte : decode 0b0000001010101011 = .command (.updateByte 0b10101011) := by decide
theorem test_decode_finalize : decode 0b0000001100000000 = .command .finalize := by decide
theorem test_decode_readDigest : decode 0b0000010000010110 = .command (.readDigest 0b00010110) := by decide
theorem test_decode_readStatus : decode 0b0000010100000001 = .command (.readStatus 1) := by decide

/-- V-ERR-03 to V-ERR-07 and program P2: the illegal words, each with its reason. -/
theorem test_decode_illegal :
    [0x0000, 0x0101, 0x0301, 0x0420, 0x0502, 0x06FF, 0xFF00].map decode =
      [.illegal .reservedOpcode, .illegal .operandNotZero, .illegal .operandNotZero, .illegal .digestIndexTooLarge,
        .illegal .selectorTooLarge, .illegal .reservedOpcode, .illegal .reservedOpcode] := by decide

/-- R51's examples. -/
theorem test_assemble :
    assemble ["INIT ; start".toList, "; nothing".toList, "UPDATE_BYTE 0x61".toList, "READ_DIGEST 31".toList] =
      some [0x0100, 0x0261, 0x041F] := by decide

/-- The number of digits is the model's choice (notes/assumptions/7.md). -/
theorem test_assemble_leading_zeros :
    (assembleLine "UPDATE_BYTE 0x0061".toList, assembleLine "READ_DIGEST 007".toList) =
      (.word 0x0261, .word 0x0407) := by decide

/-- No line of R51 assembles to an illegal word. -/
theorem test_assemble_rejects :
    ["READ_DIGEST 32", "INIT 0", "UPDATE_BYTE 256", "UPDATE_BYTE", "NOP"].map (assembleLine ·.toList) =
      List.replicate 5 .error := by decide

/-! ## Parameters: R6 and the arithmetic of R7 -/

theorem test_parameters :
    Config.stateWidth - 8 * Config.capacity = 8 * Config.rate ∧ Config.rate = 8 * Config.rateLanes ∧
    Config.stateWidth = Config.laneCount * Config.laneWidth ∧ 200 - Config.rate = Config.capacity ∧
    Config.digestBytes = 4 * 8 := by decide

/-- The numerals in the types are the parameters. -/
theorem test_types_have_the_parameters :
    Block = Vector Byte Config.rate ∧ Lane = BitVec Config.laneWidth ∧ roundIndices.length = Config.roundCount ∧
    (∀ A, (squeeze A).toList.length = Config.digestBytes) := ⟨rfl, rfl, rfl, fun A => by simp⟩

/-! ## Words and round steps: V-ROL, V-LE, V-TH, V-RH, V-PI, V-CH, V-IO -/

theorem test_rol64 :
    rol64 0x0123456789ABCDEF 0 = 0x0123456789ABCDEF ∧ rol64 0x8000000000000001 1 = 3 ∧
    rol64 1 63 = 0x8000000000000000 ∧ rol64 0x0123456789ABCDEF 4 = 0x123456789ABCDEF0 ∧
    rol64 0x0123456789ABCDEF 62 = 0xC048D159E26AF37B := by decide

theorem test_le64 : le64 1 2 3 4 5 6 7 8 = 0x0807060504030201 := by decide

/-- V-TH-01. -/
theorem test_theta :
    let A := theta (LaneArray.zero.setLane 0 0 1)
    (List.range 25).map (fun i => A.at (Fin.ofNat 25 i)) =
      [1, 1, 0, 0, 2, 0, 1, 0, 0, 2, 0, 1, 0, 0, 2, 0, 1, 0, 0, 2, 0, 1, 0, 0, 2] := by decide +kernel

/-- V-RH-01, four of its lanes. -/
theorem test_rho :
    let A := rho (.ofXY fun _ _ => 1)
    A.at 2 = 0x4000000000000000 ∧ A.at 24 = 0x4000 ∧ A.at 5 = 0x1000000000 ∧ A.at 1 = 2 := by decide +kernel

/-- V-PI-01. -/
theorem test_pi :
    let A := pi (.ofXY fun x y => BitVec.ofNat 64 (laneIndex x y).val)
    (List.range 25).map (fun i => A.at (Fin.ofNat 25 i)) =
      [0, 6, 12, 18, 24, 3, 9, 10, 16, 22, 1, 7, 13, 19, 20, 4, 5, 11, 17, 23, 2, 8, 14, 15, 21] := by decide +kernel

/-- V-CH-01 and V-CH-02. -/
theorem test_chi :
    chi (LaneArray.zero.setLane 1 0 0xFFFFFFFFFFFFFFFF) =
      (LaneArray.zero.setLane 1 0 0xFFFFFFFFFFFFFFFF).setLane 4 0 0xFFFFFFFFFFFFFFFF ∧
    chi (LaneArray.zero.setLane 2 0 0xF) = (LaneArray.zero.setLane 2 0 0xF).setLane 0 0 0xF := by decide +kernel

/-- V-IO-02. -/
theorem test_iota : iota .zero 23 = LaneArray.zero.setLane 0 0 0x8000000080008008 := by decide +kernel

/-- V-RD-02, six of its lanes. -/
theorem test_round :
    let A := keccakRound (keccakRound .zero 0) 1
    A.at 0 = 0x8083 ∧ A.at 1 = 0x0000100000000000 ∧ A.at 6 = 0x0000200000200000 ∧ A.at 13 = 0x202 ∧
      A.at 22 = 0x0000010000000004 ∧ A.at 24 = 4 := by decide +kernel

/-- V-KF-01, five of its lanes. -/
theorem test_keccakF :
    let A := keccakF .zero
    A.at 0 = 0xF1258F7940E1DDE7 ∧ A.at 1 = 0x84D5CCF933C0478A ∧ A.at 9 = 0x30935AB7D08FFC64 ∧
      A.at 16 = 0x64BEFEF28CC970F2 ∧ A.at 24 = 0xEAF1FF7B5CECA249 := by decide +kernel

/-! ## Padding and digests: V-SP, V-SRC, V-DG -/

/-- V-SP-02 and V-SP-03. -/
theorem test_pad :
    Block.lane (pad (Block.ofBytes abc) 3) 0 = 0x0000000001636261 ∧
    Block.lane (pad (Block.ofBytes abc) 3) 16 = 0x8000000000000000 ∧
    Block.lane (pad .zero 135) 16 = 0x8100000000000000 := by decide +kernel

/-- V-SRC-01, with the 64 digits of 90_conflicts.md C1. -/
theorem test_keccak256_empty :
    bigEndian (keccak256 []).toList =
      0xc5d2460186f7233c927e7db2dcc703c0e500b653ca82273b7bfad8045d85a470 := by decide +kernel

/-- V-SRC-02, the source's own vector. -/
theorem test_keccak256_abc :
    bigEndian (keccak256 abc).toList =
      0x4e03657aea45a94fc7d47ba826c8d667c0d1e6e33a64a036ec44f58fa12d6c45 := by decide +kernel

/-- V-DG-08: 135 bytes, one block that ends in `0x81`. -/
theorem test_keccak256_135 :
    bigEndian (keccak256 (List.replicate 135 0x61)).toList =
      0x34367dc248bbd832f4e3e69dfaac2f92638bd0bbd18f2912ba4ef454919cf446 := by decide +kernel

/-- V-DG-09: 136 bytes, a full block and one of padding alone. -/
theorem test_keccak256_136 :
    bigEndian (keccak256 (List.replicate 136 0x61)).toList =
      0xa6c4d403279fe3e0af03729caada8374b5ca54d8065329a3ebcaeb4b60aa386e := by decide +kernel

/-! ## One step of each command: V-CMD, V-ERR -/

/-- V-CMD-01. -/
theorem test_init_from_finalized :
    step (finalizedAbc.present 0x0100) =
      .next { finalizedAbc with ctx := ⟨.zero, .zero, 0, .absorbing⟩, response := some ⟨.ok, 0⟩ } := rfl

/-- V-CMD-03. -/
theorem test_init_from_absorbing :
    step ((absorbingAt 5).present 0x0100) =
      .next { absorbingAt 5 with ctx := ⟨.zero, .zero, 0, .absorbing⟩, response := some ⟨.ok, 0⟩ } := rfl

/-- V-CMD-04. -/
theorem test_updateByte_appends :
    step ((absorbingAt 3).present 0x02AB) =
      .next { absorbingAt 3 with
        ctx := ⟨.zero, Block.zero.set 3 0xAB, 4, .absorbing⟩, response := some ⟨.ok, 0⟩ } := rfl

/-- V-CMD-05. -/
theorem test_updateByte_absorbs :
    (stateOf (step ((absorbingAt 135).present 0x0200))).map
        (fun t => (t.ctx.lanes.at 0, t.ctx.lanes.at 24, t.ctx.cursor, t.ctx.fsm)) =
      some (0xF1258F7940E1DDE7, 0xEAF1FF7B5CECA249, 0, .absorbing) := by decide +kernel

/-- V-CMD-09. -/
theorem test_finalize_empty :
    (stateOf (step ((absorbingAt 0).present 0x0300))).map
        (fun t => (t.ctx.lanes.at 0, t.ctx.lanes.at 3, t.ctx.cursor, t.ctx.fsm)) =
      some (0x3C23F7860146D2C5, 0x70A4855D04D8FA7B, 0, .finalized) := by decide +kernel

/-- V-ERR-02. -/
theorem test_finalize_twice :
    step (finalizedAbc.present 0x0300) =
      .next { finalizedAbc with response := some ⟨.errState, 0⟩ } := rfl

/-- V-CMD-07. -/
theorem test_readDigest_7 :
    step (finalizedAbc.present 0x0407) =
      .next { finalizedAbc with response := some ⟨.ok, 0x4F⟩ } := rfl

/-- V-ERR-08. -/
theorem test_readDigest_absorbing :
    step ((absorbingAt 0).present 0x0400) =
      .next { absorbingAt 0 with response := some ⟨.errState, 0⟩ } := rfl

/-- V-CMD-08, selector 0. -/
theorem test_readStatus_fsm :
    step ((absorbingAt 3).present 0x0500) =
      .next { absorbingAt 3 with response := some ⟨.ok, 1⟩ } := rfl

/-- V-CMD-08, selector 1. -/
theorem test_readStatus_cursor :
    step ((absorbingAt 3).present 0x0501) =
      .next { absorbingAt 3 with response := some ⟨.ok, 3⟩ } := rfl

/-- V-ERR-04: legality before lifecycle. -/
theorem test_illegal_before_state :
    step (finalizedAbc.present 0x0301) =
      .next { finalizedAbc with response := some ⟨.errIllegal, 0⟩ } := rfl

/-- R43: the response word of `{ERR_ILLEGAL, 0x00}` and of `{OK, 0xC5}`. -/
theorem test_response_word :
    (Response.mk .errIllegal 0).word = 0x0200 ∧ (Response.mk .ok 0xC5).word = 0x00C5 := by decide

/-- A word with CODE 3, or with a bit of `RSP[15:10]` set, is refused by the host that receives it (U8). -/
theorem test_reserved_responses :
    Response.ofWord 0x0300 = .refused .reservedResponse ∧ Response.ofWord 0x0400 = .refused .reservedResponse :=
  ⟨rfl, rfl⟩

/-- FSM code 3 is refused by the host that reads it (U7). -/
theorem test_reserved_fsm_code : Fsm.ofCode 3 = .refused .reservedFsmCode := rfl

/-- V-ERR-10. -/
theorem test_hostUpdate_empty_in_created :
    ∃ h, hostUpdate [] (.start .reset) = .next (h, .raised .stateError) ∧ h.issued = [0x0500] :=
  ⟨_, rfl, rfl⟩

/-- V-KH-02, V-KH-04 and V-KH-07: out of range, with no command issued. -/
theorem test_hostKeccak256_out_of_range (h : Session) :
    hostKeccak256 [0x78, 0x61, 0x62, 0x63, 0x78] 3 3 h = .next (h, .raised .invalidArgument) ∧
    hostKeccak256 [0x78, 0x61, 0x62, 0x63, 0x78] 6 0 h = .next (h, .raised .invalidArgument) ∧
    hostKeccak256 [0x78, 0x61, 0x62, 0x63, 0x78] (2 ^ 64 - 1) 2 h = .next (h, .raised .invalidArgument) :=
  ⟨rfl, rfl, rfl⟩

/-- A refused claim: the second host's UPDATE_BYTE ended the first one's exclusive ownership (U1). -/
theorem test_shared_context :
    claimDigest 1 [⟨1, 0x0100⟩, ⟨2, 0x0261⟩, ⟨1, 0x0300⟩] .reset = .refused .sharedContext := rfl

/-- The fetch word is run by the very next step after reset. -/
theorem test_withFetchWord :
    step (State.reset.withFetchWord 16 0x0100) =
      .next { State.reset with ctx := .fresh, response := some ⟨.ok, 0⟩ } := rfl

theorem test_decodeTableWord :
    [0x0100, 0x0200, 0x0300, 0x0400, 0x0500, 0x0600].map (decodeTableWord 16) =
      [some .init, some (.updateByte 0), some .finalize, some (.readDigest 0), some (.readStatus 0), none] := by decide

/-! ## Witnesses: what meets the hypotheses of each statement

A statement whose hypotheses are only that a number is in a range, or that a word decodes to something, has its
boundary values here. `exec_eq_answer` and `step_present` give the next state of a command without computing it. -/

theorem test_witness_RotationMovesEveryBit :
    (0 < 1 ∧ 1 < 64) ∧ (0 < 63 ∧ 63 < 64) ∧ (rol64 1 63).getLsbD ((0 + 63) % 64) = (1 : Lane).getLsbD 0 ∧
    (rol64 0x8000000000000000 1).getLsbD ((63 + 1) % 64) = true := by decide

theorem test_witness_LaneBytesAreLittleEndian :
    7 < 8 ∧ byteOf 0x0807060504030201 7 = 8 ∧ byteOf 0x0807060504030201 0 = 1 := by decide

/-- A reset that arrives in FINALIZED, with a command behind it. -/
theorem test_witness_ResetLeavesTheZeroContextInCreated :
    ∃ (s : State) (rest : List HostEvent), s.inbox = .reset :: rest ∧ s.ctx.fsm = .finalized :=
  ⟨{ finalizedAbc with inbox := [.reset, .command 0x0100] }, _, rfl, rfl⟩

/-- Each way FSM changes: to CREATED by reset, to ABSORBING by INIT, to FINALIZED by FINALIZE; FINALIZED is left by
reset and by INIT. -/
theorem test_witness_LifecycleStateChangesOnlyAsTabulated :
    (∃ s t, step s = .next t ∧ s.ctx.fsm = .finalized ∧ t.ctx.fsm = .created) ∧
    (∃ s t, step s = .next t ∧ s.ctx.fsm = .finalized ∧ t.ctx.fsm = .absorbing) ∧
    (∃ s t, step s = .next t ∧ s.ctx.fsm = .created ∧ t.ctx.fsm = .absorbing) ∧
    ∃ s t, step s = .next t ∧ s.ctx.fsm = .absorbing ∧ t.ctx.fsm = .finalized :=
  ⟨⟨{ finalizedAbc with inbox := [.reset] }, _, rfl, rfl, rfl⟩,
    ⟨finalizedAbc.present 0x0100, _, step_present _ _, rfl, rfl⟩,
    ⟨State.reset.present 0x0100, _, step_present _ _, rfl, rfl⟩,
    ⟨(absorbingAt 0).present 0x0300, _, step_present _ _, rfl, rfl⟩⟩

/-- Two engines that differ in a lane no response shows: in FINALIZED in lane 24, in ABSORBING in lane 0. -/
theorem test_witness_HiddenStateNeverShowsInAResponse :
    (∃ s s' t t' : State, s.ctx ≠ s'.ctx ∧ s.ctx.fsm = .finalized ∧ s'.ctx.fsm = .finalized ∧
      s.ctx.cursor = s'.ctx.cursor ∧ (∀ i : Fin 25, i.val < 4 → s.ctx.lanes.at i = s'.ctx.lanes.at i) ∧
      step (s.present 0x0407) = .next t ∧ step (s'.present 0x0407) = .next t') ∧
    ∃ s s' t t' : State, s.ctx ≠ s'.ctx ∧ s.ctx.fsm = .absorbing ∧ s'.ctx.fsm = .absorbing ∧
      s.ctx.cursor = s'.ctx.cursor ∧ step (s.present 0x0400) = .next t ∧ step (s'.present 0x0400) = .next t' :=
  ⟨⟨finalizedAbc, { finalizedAbc with
      ctx := ⟨(LaneArray.zero.setLane 0 0 0x4FA945EA7A65034E).setLane 4 4 1, .zero, 0, .finalized⟩ }, _, _,
    by decide +kernel, rfl, rfl, rfl, by decide +kernel, step_present _ _, step_present _ _⟩,
    ⟨absorbingAt 3, { absorbingAt 3 with ctx := ⟨LaneArray.zero.setLane 0 0 1, .zero, 3, .absorbing⟩ }, _, _,
      by decide +kernel, rfl, rfl, rfl, step_present _ _, step_present _ _⟩⟩

theorem absorbing_wellFormed (c : Fin 136) : (absorbingAt c).ctx.WellFormed :=
  ⟨fun k _ => Block.zero_getElem k.val k.isLt, fun h => (nomatch h), fun h => (nomatch h)⟩

/-- A well-formed state with 135 bytes buffered, whose next UPDATE_BYTE absorbs them. -/
theorem test_witness_EveryStepKeepsTheStateWellFormed :
    ∃ s t : State, s.ctx.WellFormed ∧ s.ctx.cursor = 135 ∧ step s = .next t :=
  ⟨(absorbingAt 135).present 0x0261, _, absorbing_wellFormed 135, rfl, step_present _ _⟩

/-- Each clause: UPDATE_BYTE at CURSOR 0 and 135; FINALIZE with reads and a rejected command before the next FINALIZE;
INIT; the reads; a rejected command. -/
theorem test_witness_OnlyReadsAndInitAreIdempotent :
    (∃ t, exec (.updateByte 0) (absorbingAt 0) = .next t) ∧
    (∃ t, exec (.updateByte 0) (absorbingAt 135) = .next t) ∧
    (∃ t, exec .finalize (absorbingAt 0) = .next t) ∧ (absorbingAt 0).ctx.fsm = .absorbing ∧
    (∀ w ∈ ([0x0400, 0x0200] : List CommandWord), decode w ≠ .command .init) ∧
    (∀ t, ∃ g rs, runWords [0x0400, 0x0200] (.start t) = .next (g, rs)) ∧
    (∃ t, exec .init finalizedAbc = .next t) ∧ (∃ t, exec (.readDigest 31) finalizedAbc = .next t) ∧
    (∃ t, exec (.readStatus 1) finalizedAbc = .next t) ∧
    ∃ t r, step (finalizedAbc.present 0x0300) = .next t ∧ t.response = some r ∧ r.code ≠ .ok :=
  ⟨⟨_, exec_eq_answer _ _⟩, ⟨_, exec_eq_answer _ _⟩,
    ⟨_, exec_eq_answer _ _⟩, rfl, List.forall_mem_cons.2 ⟨by decide, List.forall_mem_cons.2 ⟨by decide, nofun⟩⟩,
    fun _ => ⟨_, _, runWords_eq _ _⟩, ⟨_, exec_eq_answer _ _⟩, ⟨_, exec_eq_answer _ _⟩, ⟨_, exec_eq_answer _ _⟩,
    ⟨_, _, step_present _ _, rfl, by decide⟩⟩

/-- Two commands at the port, a reset behind them. -/
theorem test_witness_CommandsTakeEffectInIssueOrder :
    ∃ s : State, s.inbox = ([0x0100, 0x0261] : List CommandWord).map .command ++ [.reset] :=
  ⟨{ State.reset with inbox := [.command 0x0100, .command 0x0261, .reset] }, rfl⟩

/-- An interleaving that is no concatenation. -/
theorem test_witness_EveryInterleavingIsAdmitted :
    Interleaving [1, 2] [3] [1, 3, 2] ∧ interleave [true, false] [1, 2] [3] = [1, 3, 2] :=
  ⟨.left (.right (.left .nil)), rfl⟩

/-- Engine 0 of two takes INIT, and is then where its own step brings it; engine 1 has nothing issued. -/
theorem test_witness_EnginesShareNoState :
    (0 : Fin 2) ≠ 1 ∧ ∃ q, ((Platform.reset 2).issueTo 0 (.command 0x0100)).step 0 = .next q ∧
      q.engines[0].ctx = .fresh ∧ q.engines[1] = .reset := ⟨by decide, _, rfl, rfl, rfl⟩

/-- Responses other than OK, and words of neither read. -/
theorem test_witness_EveryCommandGetsOneResponse :
    (∃ t r, step (State.reset.present 0x0300) = .next t ∧ t.response = some r ∧ r.code ≠ .ok) ∧
    (∀ j, decode 0x0100 ≠ .command (.readDigest j)) ∧ ∀ sel, decode 0x0100 ≠ .command (.readStatus sel) :=
  ⟨⟨_, _, step_present _ _, rfl, by decide⟩, by decide +kernel, by decide +kernel⟩

/-- Each row at the ends of its range, and a word of no row. -/
theorem test_witness_WordsDecodeByTheirOpcodeRow :
    [0x0100, 0x0200, 0x02FF, 0x0300, 0x0400, 0x041F, 0x0500, 0x0501].map matchingRows = List.replicate 8 1 ∧
    [0x0000, 0x0101, 0x0420, 0x0502, 0xFFFF].map matchingRows = List.replicate 5 0 := by decide

/-- Each cause of an illegal word, at the least value. -/
theorem test_witness_IllegalWordsAreRejectedUnchanged :
    (∀ w : CommandWord, (State.reset.present w).inbox = .command w :: []) ∧
    decode 0x0101 = .illegal .operandNotZero ∧ decode 0x0301 = .illegal .operandNotZero ∧
    decode 0x0420 = .illegal .digestIndexTooLarge ∧ decode 0x0502 = .illegal .selectorTooLarge ∧
    decode 0x0000 = .illegal .reservedOpcode ∧ decode 0x0600 = .illegal .reservedOpcode :=
  ⟨fun _ => rfl, by decide⟩

/-- Lane 16 is the last of the rate, lane 17 the first of the capacity; state byte 135 the last of a block. -/
theorem test_witness_AbsorptionXorsBytesLittleEndian :
    (135 : Fin 200).val < 136 ∧ ¬ (136 : Fin 200).val < 136 ∧ 17 ≤ (17 : Fin 25).val ∧ ¬ 17 ≤ (16 : Fin 25).val := by decide

theorem test_witness_RotationOffsetsAreTheGeneratedOnes : 23 < 24 ∧ rhoStep 23 = 44 ∧ rhoOrbit 23 = (1, 1) := by decide

/-- A message with a full block and a tail. -/
theorem test_witness_CommandSequenceComputesKeccak256 :
    0 < (List.replicate 137 (0 : Byte)).length / 136 ∧ (tailLength (List.replicate 137 0)).val = 1 := by decide +kernel

theorem test_witness_DecodeOfEncodeIsTheCommand :
    Instr.init.wellFormed ∧ (Instr.updateByte 0xFF).wellFormed ∧ Instr.finalize.wellFormed ∧
    (Instr.readDigest 31).wellFormed ∧ (Instr.readStatus 1).wellFormed := by decide

theorem test_witness_EncodeOfDecodeIsTheWord : decode 0x041F = .command (.readDigest 31) := by decide

theorem test_witness_AssemblyLinesGiveTheirWords :
    (Instr.readDigest 31).wellFormed ∧ (31 : Byte) < 32 ∧ (1 : Byte) < 2 ∧
    assembleLine "READ_DIGEST 31 ; the last byte".toList = .word 0x041F ∧
    assembleLine "READ_STATUS 1".toList = .word 0x0501 := by decide

/-- The parities of a state, and a state that is not zero and whose parities are. -/
theorem test_witness_ThetaXorsNeighbourParities :
    (∀ A : LaneArray, ∃ C : Fin 5 → Lane, ∀ x,
      C x = A.lane x 0 ^^^ A.lane x 1 ^^^ A.lane x 2 ^^^ A.lane x 3 ^^^ A.lane x 4) ∧
    ∃ A : LaneArray, A ≠ .zero ∧
      ∀ x, A.lane x 0 ^^^ A.lane x 1 ^^^ A.lane x 2 ^^^ A.lane x 3 ^^^ A.lane x 4 = 0 :=
  ⟨fun _ => ⟨_, fun _ => rfl⟩,
    ⟨(LaneArray.zero.setLane 0 0 1).setLane 0 1 1, by decide +kernel, by decide +kernel⟩⟩

/-- Bit 0 of a lane takes bit 63 of the column to the right. -/
theorem test_witness_ThetaMixesElevenBits :
    0 < 64 ∧ ((theta (LaneArray.zero.setLane 1 3 0x8000000000000000)).lane 0 0).getLsbD 0 = true := by decide +kernel

theorem test_witness_RhoRotatesEachLane : 63 < 64 ∧ rhoOffset 2 0 = 62 := by decide

/-- Bits 0 and 63 of a round constant. -/
theorem test_witness_RoundConstantsAreTheGeneratedOnes :
    (roundConstant 0).getLsbD 0 = true ∧ (roundConstant 23).getLsbD 63 = true := by decide

/-- A row of zeros beside a row of ones. -/
theorem test_witness_ChiMixesRowsFromTheirInputs :
    ∃ A : LaneArray, (∀ x, A.lane x 0 = 0) ∧ ∀ x, A.lane x 1 = 0xFFFFFFFFFFFFFFFF :=
  ⟨.ofXY fun _ y => if y = 1 then 0xFFFFFFFFFFFFFFFF else 0, by decide +kernel, by decide +kernel⟩

/-- States that differ, and agree in two bit slices, in a lane, in a row's bit. -/
theorem test_witness_StepsActOnSlicesLanesAndRows :
    ∃ A B : LaneArray, A ≠ B ∧ (∀ x y, (A.lane x y).getLsbD 0 = (B.lane x y).getLsbD 0) ∧
      (∀ x y, (A.lane x y).getLsbD ((0 + 63) % 64) = (B.lane x y).getLsbD ((0 + 63) % 64)) ∧
      A.lane 4 4 = B.lane 4 4 ∧ ((4, 4) : Fin 5 × Fin 5) ≠ (0, 0) :=
  ⟨.zero, LaneArray.zero.setLane 0 0 2, by decide +kernel, by decide +kernel, by decide +kernel, by decide +kernel,
    by decide⟩

/-- Buffers of every length, here 0, 3 and 135 bytes. -/
theorem test_witness_PaddingFramesTheBufferedBytes :
    (∀ m : Fin 136, 0 ≤ m → (Block.zero)[m.val] = 0) ∧ (∀ m : Fin 136, 3 ≤ m → (Block.ofBytes abc)[m.val] = 0) ∧
    ∀ m : Fin 136, 135 ≤ m → (Block.ofBytes (List.replicate 135 0x61))[m.val] = 0 := by decide +kernel

theorem test_witness_AbsorbBlockPermutesTheXoredLanes :
    ∃ (A B : LaneArray) (blk : Block), A ≠ B ∧
      (∀ i : Fin 17, B.at ⟨i.val, by omega⟩ = A.at ⟨i.val, by omega⟩ ^^^ Block.lane blk i) ∧
      ∀ i : Fin 25, 17 ≤ i.val → B.at i = A.at i :=
  ⟨.zero, LaneArray.zero.setLane 0 0 1, Block.zero.set 0 1, by decide +kernel, by decide +kernel, by decide +kernel⟩

/-- A state that stands for each kind of message-level context, and one with a block boundary behind it. -/
theorem test_witness_EngineRefinesTheMessageLevelContext :
    (∃ s : State, s.ctx = Ideal.created.context) ∧ (∃ s : State, s.ctx = (Ideal.absorbing abc).context) ∧
    (∃ s : State, s.ctx = (Ideal.absorbing (List.replicate 136 0)).context) ∧
    ∃ s : State, s.ctx = (Ideal.finalized abc).context :=
  ⟨⟨.reset, rfl⟩, ⟨{ State.reset with ctx := _ }, rfl⟩, ⟨{ State.reset with ctx := _ }, rfl⟩,
    ⟨{ State.reset with ctx := _ }, rfl⟩⟩

/-- A step from a state that stands for a message with 135 bytes buffered, and a run from reset: INIT issued and
taken. -/
theorem test_witness_ReachableContextsStandForMessages :
    (∀ M : List Byte, ∃ s t : State, (∃ a : Ideal, s.ctx = a.context) ∧ s.ctx.cursor = tailLength M ∧
      step s = .next t) ∧
    tailLength (List.replicate 135 0) = 135 ∧ ∃ s : State, Reachable s ∧ s.ctx.fsm = .absorbing :=
  ⟨fun M => ⟨State.present { State.reset with ctx := (Ideal.absorbing M).context } 0x0261, _,
      ⟨.absorbing M, rfl⟩, rfl, step_present _ _⟩,
    by decide +kernel,
    ⟨_, .step (.issue [.command 0x0100] .reset) (step_present State.reset 0x0100), rfl⟩⟩

theorem test_witness_ChunkingDoesNotChangeTheDigest : (Session.start (absorbingAt 135)).engine.ctx.fsm = .absorbing :=
  rfl

theorem test_witness_BlockBoundaryPadding :
    ([] : List Byte).length % 136 = 0 ∧ (List.replicate 136 (0 : Byte)).length % 136 = 0 ∧
    (List.replicate 135 (0 : Byte)).length % 136 = 135 ∧ (List.replicate 271 (0 : Byte)).length % 136 = 135 := by
  decide +kernel

/-- Each clause: UPDATE_BYTE at CURSOR 135 and 134 and outside ABSORBING, FINALIZE in and outside it, INIT, and a word
that is none of these. -/
theorem test_witness_PermutationRunsOncePerFullBlock :
    (∀ (s : State) (w : CommandWord), ∃ t, step (s.present w) = .next t) ∧
    decode 0x0200 = .command (.updateByte 0) ∧ (absorbingAt 135).ctx.cursor = 135 ∧
    (absorbingAt 134).ctx.cursor ≠ 135 ∧ (absorbingAt 0).ctx.fsm = .absorbing ∧ finalizedAbc.ctx.fsm ≠ .absorbing ∧
    decode 0x0300 = .command .finalize ∧ decode 0x0100 = .command .init ∧
    (∀ b, decode 0x0400 ≠ .command (.updateByte b)) ∧ decode 0x0400 ≠ .command .finalize ∧
    decode 0x0400 ≠ .command .init :=
  ⟨fun s w => ⟨_, step_present s w⟩, by decide +kernel⟩

theorem test_witness_StepRunsTheDecodedCommand :
    (State.reset.present 0x041F).inbox = .command 0x041F :: [] ∧ decode 0x041F = .command (.readDigest 31) ∧
    State.reset.inbox = [] ∧ (Platform.reset 2).engines[1].inbox = [] ∧ (Instr.readDigest 31).wellFormed := by decide

theorem test_witness_InitCreatesAFreshContext : opOf 0x0101 = 0x01 ∧ imm8Of 0x0101 ≠ 0x00 := by decide

/-- CURSOR 134, 135, and a state that is not ABSORBING. -/
theorem test_witness_UpdateByteAppendsAndAbsorbs :
    ((absorbingAt 134).ctx.fsm = .absorbing ∧ (absorbingAt 134).ctx.cursor ≠ 135) ∧
    ((absorbingAt 135).ctx.fsm = .absorbing ∧ (absorbingAt 135).ctx.cursor = 135) ∧
    State.reset.ctx.fsm ≠ .absorbing := by decide +kernel

theorem test_witness_FinalizeAbsorbsThePaddedBlock :
    opOf 0x03FF = 0x03 ∧ imm8Of 0x03FF ≠ 0x00 ∧ (absorbingAt 135).ctx.fsm = .absorbing ∧
    finalizedAbc.ctx.fsm ≠ .absorbing := by decide

/-- Index 31, the word of index 32, and a FINALIZED state that takes a step. -/
theorem test_witness_ReadDigestReturnsTheDigestByte :
    (∃ t, step (finalizedAbc.present 0x041F) = .next t) ∧ (31 : Byte).toNat < 32 ∧
    (opOf 0x0420 = 0x04 ∧ 0x20 ≤ imm8Of 0x0420) ∧
    finalizedAbc.ctx.fsm = .finalized ∧ (absorbingAt 0).ctx.fsm ≠ .finalized :=
  ⟨⟨_, step_present _ _⟩, by decide⟩

theorem test_witness_ReadStatusReturnsTheSelectedField :
    State.reset.ctx.fsm = .created ∧ (absorbingAt 0).ctx.fsm = .absorbing ∧ finalizedAbc.ctx.fsm = .finalized ∧
    (opOf 0x0502 = 0x05 ∧ 0x02 ≤ imm8Of 0x0502) ∧ opOf 0x05FF = 0x05 ∧ 0x02 ≤ imm8Of 0x05FF := by decide

theorem test_witness_TermsOfNoWordAreIllegal :
    (Instr.readDigest 32).wellFormed = false ∧ (Instr.readDigest 255).wellFormed = false ∧
    (Instr.readStatus 2).wellFormed = false := by decide

/-- Chunks of no byte and of one, in ABSORBING and outside it. -/
theorem test_witness_HostUpdateIsAllOrNothing :
    (([0] : List Byte) ≠ [] ∧ (Session.start (absorbingAt 135)).engine.ctx.fsm = .absorbing) ∧
    (Session.start State.reset).engine.ctx.fsm ≠ .absorbing := by decide +kernel

theorem test_witness_HostDigestReadsAllBytes :
    (Session.start finalizedAbc).engine.ctx.fsm = .finalized ∧
    (Session.start State.reset).engine.ctx.fsm ≠ .finalized := by decide

/-- V-KH-01, V-KH-03 and V-KH-05 in range, V-KH-04 out of it, indices in 3 bits, and a command that is not OK. -/
theorem test_witness_HostKeccak256HashesTheSlice :
    (1 + 3 ≤ 5 ∧ 5 + 0 ≤ 5 ∧ 0 + 0 ≤ ([] : List Byte).length) ∧ 5 < 6 + 0 ∧
    ((1 : BitVec 3).toNat = 1 ∧ (3 : BitVec 3).toNat = 3) ∧
    ∃ p, issue 0x0300 (.start .reset) = .next p ∧ p.2.code ≠ .ok :=
  ⟨by decide, by decide, by decide, ⟨_, issue_eq _ _, by decide⟩⟩

/-- V-KH-07: a sum that would wrap in 64 bits. -/
theorem test_witness_OutOfRangeInputIsInvalidArgument :
    5 < 6 + 0 ∧ 5 < (BitVec.ofNat 64 (2 ^ 64 - 1)).toNat + (2 : BitVec 64).toNat := by decide +kernel

theorem test_witness_StateErrorIsRaisedByTheLifecycle :
    State.reset.ctx.fsm ≠ .absorbing ∧ finalizedAbc.ctx.fsm ≠ .absorbing ∧ (31 : Byte) < 32 ∧
    (absorbingAt 0).ctx.fsm ≠ .finalized ∧ State.reset.ctx.fsm ≠ .finalized := by decide

/-- A rejected command, and each host operation that raises an error. -/
theorem test_witness_RejectionLeavesTheContextUnchanged :
    (∃ t r, step (finalizedAbc.present 0x0261) = .next t ∧ t.response = some r ∧ r.code ≠ .ok) ∧
    (∃ h', hostUpdate [0x61] (.start finalizedAbc) = .next (h', .raised .stateError)) ∧
    (∃ h', hostDigest (.start .reset) = .next (h', .raised .stateError)) ∧
    ∃ h', hostKeccak256 [] 1 0 (.start finalizedAbc) = .next (h', .raised .invalidArgument) :=
  ⟨⟨_, _, step_present _ _, rfl, by decide⟩, ⟨_, rfl⟩, ⟨_, rfl⟩, ⟨_, rfl⟩⟩

theorem test_witness_ErrorsAreReportedInPriorityOrder :
    (∃ h', hostKeccak256 [] 1 0 (.start finalizedAbc) = .next (h', .raised .invalidArgument)) ∧
    (∃ t r, step (finalizedAbc.present 0x0301) = .next t ∧ t.response = some r ∧ r.code = .errIllegal) ∧
    ∃ t r, step (finalizedAbc.present 0x0300) = .next t ∧ t.response = some r ∧ r.code = .errState :=
  ⟨⟨_, rfl⟩, ⟨_, _, step_present _ _, rfl, by decide⟩, ⟨_, _, step_present _ _, rfl, by decide⟩⟩

/-- A stream in which host 1 owns the engine although host 2 was there before its INIT; and one in which it does not. -/
theorem test_witness_DigestClaimsNeedExclusiveOwnership :
    exclusiveOwner [⟨2, 0x0261⟩, ⟨1, 0x0100⟩, ⟨1, 0x0261⟩, ⟨1, 0x0300⟩] = some 1 ∧
    Ideal.after (wordsOf 1 [⟨2, 0x0261⟩, ⟨1, 0x0100⟩, ⟨1, 0x0261⟩, ⟨1, 0x0300⟩]) = .finalized [0x61] ∧
    exclusiveOwner [⟨1, 0x0100⟩, ⟨2, 0x0261⟩, ⟨1, 0x0300⟩] ≠ some 1 := by decide +kernel

/-- Reset and INIT from FINALIZED; in CREATED each of the words that is not answered by ERR_STATE, and one that is. -/
theorem test_witness_ResetAndInitDifferInFsmAlone :
    (∃ t u, step { finalizedAbc with inbox := [.reset] } = .next t ∧
      step { finalizedAbc with inbox := [.command (encode .init)] } = .next u) ∧
    State.reset.ctx.fsm = .created ∧
    (∀ w : CommandWord, ∃ t r, step (State.reset.present w) = .next t ∧ t.response = some r) ∧
    [0x0100, 0x0501, 0x0000, 0x0261].map (fun w => (State.reset.ctx.answerWord w).2.code) =
      [.ok, .ok, .errIllegal, .errState] :=
  ⟨⟨_, _, rfl, step_present finalizedAbc (encode .init)⟩, rfl, fun w => ⟨_, _, step_present _ w, rfl⟩,
    by decide +kernel⟩

end Sys2Proof.Tests
end

section
/-! PROOFS. The word primitives of 00_scope.md: `ROL64` is the library's rotation (R10), and bit `j` of `LE64` is bit
`j mod 8` of byte `j div 8` (R12), so `LE64` and `BYTE` are inverse. -/

namespace Sys2Proof.Machine

@[simp] theorem rol64_zero (v : Lane) : rol64 v 0 = v := if_pos rfl

theorem rol64_of_pos (v : Lane) {n : Nat} (hn : 0 < n) : rol64 v n = (v <<< n ||| v >>> (64 - n)) :=
  if_neg (Nat.ne_of_gt hn)

/-- At `n = 0` the library's formula shifts `v` out to the right and leaves `v`, which R10 states as its own case. -/
theorem rol64_eq_rotateLeft (v : Lane) {n : Nat} (hn : n < 64) : rol64 v n = v.rotateLeft n := by
  rw [BitVec.rotateLeft_def, Nat.mod_eq_of_lt hn]
  obtain rfl | hpos := Nat.eq_zero_or_pos n
  · simp [BitVec.ushiftRight_eq_zero]
  · exact rol64_of_pos v hpos

/-- Bit `z` of `v` moves to bit `(z + n) mod 64` (R10). -/
theorem rol64_getLsbD_add_mod (v : Lane) {n z : Nat} (hn : n < 64) (hz : z < 64) :
    (rol64 v n).getLsbD ((z + n) % 64) = v.getLsbD z := by
  rw [rol64_eq_rotateLeft v hn, BitVec.getLsbD_rotateLeft, Nat.mod_eq_of_lt hn]
  by_cases hwrap : 64 ≤ z + n
  · have hmod : (z + n) % 64 = z + n - 64 := by omega
    have hlow : z + n - 64 < n := by omega
    have hsource : 64 - n + (z + n - 64) = z := by omega
    simp [hmod, hlow, hsource]
  · have hmod : (z + n) % 64 = z + n := by omega
    have hlt : z + n < 64 := by omega
    simp [hmod, hlt]

/-- A byte shifted to a byte boundary of a lane shows in that byte of the lane alone. -/
theorem setWidth_shiftLeft_getLsbD (b : Byte) (k : Fin 8) {s i : Nat} (hs : 8 ∣ s) (hi : i < 8) :
    (b.setWidth 64 <<< s).getLsbD (8 * k.val + i) = (decide (s = 8 * k.val) && b.getLsbD i) := by
  have hlane : 8 * k.val + i < 64 := by omega
  obtain hbelow | rfl | habove := Nat.lt_trichotomy s (8 * k.val)
  · have hshift : ¬ 8 * k.val + i < s := by omega
    have hbyte : 8 ≤ 8 * k.val + i - s := by omega
    simp [hshift, BitVec.getLsbD_of_ge b _ hbyte, Nat.ne_of_lt hbelow]
  · simp [hlane]
  · have hshift : 8 * k.val + i < s := by omega
    simp [hshift, Nat.ne_of_gt habove]

/-- Byte `k` of `LE64` stands at bits `8k+7..8k` (R12). -/
theorem le64_getLsbD (b : Fin 8 → Byte) (k : Fin 8) {i : Nat} (hi : i < 8) :
    (le64 (b 0) (b 1) (b 2) (b 3) (b 4) (b 5) (b 6) (b 7)).getLsbD (8 * k.val + i) = (b k).getLsbD i := by
  rw [le64, ← BitVec.shiftLeft_zero ((b 0).setWidth 64)]
  simp (disch := omega) only [BitVec.getLsbD_or, setWidth_shiftLeft_getLsbD]
  fin_cases k <;> simp

theorem byteOf_le64 (b : Fin 8 → Byte) (k : Fin 8) :
    byteOf (le64 (b 0) (b 1) (b 2) (b 3) (b 4) (b 5) (b 6) (b 7)) k.val = b k := by
  apply BitVec.eq_of_getLsbD_eq
  intro i hi
  rw [byteOf_getLsbD, le64_getLsbD b k hi, decide_eq_true hi, Bool.true_and]

theorem le64_byteOf (v : Lane) :
    le64 (byteOf v 0) (byteOf v 1) (byteOf v 2) (byteOf v 3) (byteOf v 4) (byteOf v 5) (byteOf v 6) (byteOf v 7) = v := by
  apply BitVec.eq_of_getLsbD_eq
  intro j hj
  have hi : j % 8 < 8 := Nat.mod_lt j (by decide)
  have hbit := le64_getLsbD (fun k => byteOf v k.val) ⟨j / 8, by omega⟩ hi
  rw [byteOf_getLsbD, decide_eq_true hi, Bool.true_and, Nat.div_add_mod] at hbit
  exact hbit

theorem LaneArray.stateByte_eq_byteOf_at (A : LaneArray) (i : Fin 25) {k : Nat} (hk : k < 8) :
    A.stateByte ⟨8 * i.val + k, by omega⟩ = byteOf (A.at i) k := by
  have hdiv : (8 * i.val + k) / 8 = i.val := by omega
  have hmod : (8 * i.val + k) % 8 = k := by omega
  simp only [LaneArray.stateByte, hdiv, hmod]

end Sys2Proof.Machine
end

section
/-! PROOFS. The obligations of 00_scope.md. -/

namespace Sys2Proof.Machine

/-- Settles O1: `ROL64` is R10's formula, and moves every bit as the library's rotation does. -/
theorem rotationMovesEveryBit : Obligations.RotationMovesEveryBit := fun v =>
  ⟨rol64_zero v, fun _ hpos _ => rol64_of_pos v hpos, fun _ _ hn hz => rol64_getLsbD_add_mod v hn hz⟩

/-- Settles O2, from the byte that each bit of `LE64` comes from. -/
theorem laneBytesAreLittleEndian : Obligations.LaneBytesAreLittleEndian := by
  refine ⟨fun b0 b1 b2 b3 b4 b5 b6 b7 => ?_, le64_byteOf, fun v k _ => byteOf_eq_extract v k,
    fun A i k hk => A.stateByte_eq_byteOf_at i hk⟩
  calc (List.range 8).map (byteOf (le64 b0 b1 b2 b3 b4 b5 b6 b7))
    _ = List.ofFn fun k : Fin 8 => byteOf (le64 b0 b1 b2 b3 b4 b5 b6 b7) k.val := rfl
    _ = List.ofFn ![b0, b1, b2, b3, b4, b5, b6, b7] :=
      congrArg List.ofFn (funext (byteOf_le64 ![b0, b1, b2, b3, b4, b5, b6, b7]))
    _ = [b0, b1, b2, b3, b4, b5, b6, b7] := by simp

end Sys2Proof.Machine
end

section
/-! PROOFS. What a command and a step do to the hash context, said once: only the four events that R20 and R26 speak of
(reset, INIT, UPDATE_BYTE and FINALIZE) leave another context. -/

namespace Sys2Proof.Machine

/-- A word that decodes to a command is the word of that command (R45). -/
theorem encode_eq_of_decode {w : CommandWord} {i : Instr} (h : decode w = .command i) : encode i = w := by
  obtain ⟨hop, himm⟩ : i.opcode = opOf w ∧ i.operand = imm8Of w := by
    unfold decode at h
    split_ifs at h <;> cases h <;> simp_all [Instr.opcode, Instr.operand]
  rw [encode, hop, himm, commandWord_fields]

/-- The contexts a command can leave: the one it found, the fresh one, or in ABSORBING the one UPDATE_BYTE or FINALIZE
makes. -/
theorem Context.answer_context_cases (c : Context) (i : Instr) :
    (c.answer i).1 = c ∨ (i = .init ∧ (c.answer i).1 = .fresh) ∨
    (c.fsm = .absorbing ∧ ∃ b, i = .updateByte b ∧ (c.answer i).1 = c.update b) ∨
    (c.fsm = .absorbing ∧ i = .finalize ∧ (c.answer i).1 = c.finalize) := by
  cases i with
  | init => exact .inr (.inl ⟨rfl, rfl⟩)
  | updateByte b =>
    by_cases h : c.fsm = .absorbing
    · exact .inr (.inr (.inl ⟨h, b, rfl, by simp [Context.answer, h]⟩))
    · exact .inl (by simp [Context.answer, h])
  | finalize =>
    by_cases h : c.fsm = .absorbing
    · exact .inr (.inr (.inr ⟨h, rfl, by simp [Context.answer, h]⟩))
    · exact .inl (by simp [Context.answer, h])
  | readDigest j => exact .inl (by cases hj : digestIndex j <;> simp [Context.answer, hj])
  | readStatus sel => exact .inl (by cases hsel : statusSelector sel <;> simp [Context.answer, hsel])

/-- The contexts a command word can leave, with the words of the commands that leave another one. -/
theorem Context.answerWord_context_cases (c : Context) (w : CommandWord) :
    (c.answerWord w).1 = c ∨ (w = encode .init ∧ (c.answerWord w).1 = .fresh) ∨
    (c.fsm = .absorbing ∧ ∃ b, w = encode (.updateByte b) ∧ (c.answerWord w).1 = c.update b) ∨
    (c.fsm = .absorbing ∧ w = encode .finalize ∧ (c.answerWord w).1 = c.finalize) := by
  cases hd : decode w with
  | illegal why => exact .inl (by simp [Context.answerWord, hd])
  | command i =>
    have hanswer : c.answerWord w = c.answer i := by simp [Context.answerWord, hd]
    rw [hanswer, ← encode_eq_of_decode hd]
    obtain h | ⟨rfl, h⟩ | ⟨hf, b, rfl, h⟩ | ⟨hf, rfl, h⟩ := c.answer_context_cases i
    · exact .inl h
    · exact .inr (.inl ⟨rfl, h⟩)
    · exact .inr (.inr (.inl ⟨hf, b, rfl, h⟩))
    · exact .inr (.inr (.inr ⟨hf, rfl, h⟩))

/-- The contexts a step can leave, with the events that leave another one. -/
theorem step_context_cases {s t : State} (h : step s = .next t) :
    t.ctx = s.ctx ∨ (s.inbox.head? = some .reset ∧ t.ctx = .reset) ∨
    (s.inbox.head? = some (.command (encode .init)) ∧ t.ctx = .fresh) ∨
    (s.ctx.fsm = .absorbing ∧ ∃ b, s.inbox.head? = some (.command (encode (.updateByte b))) ∧
      t.ctx = s.ctx.update b) ∨
    (s.ctx.fsm = .absorbing ∧ s.inbox.head? = some (.command (encode .finalize)) ∧ t.ctx = s.ctx.finalize) := by
  obtain ⟨-, rfl⟩ | ⟨rest, hin, rfl⟩ | ⟨w, rest, hin, rfl⟩ := step_cases h
  · exact .inl rfl
  · exact .inr (.inl ⟨by rw [hin]; rfl, rfl⟩)
  · rw [hin]
    obtain hc | ⟨rfl, hc⟩ | ⟨hf, b, rfl, hc⟩ | ⟨hf, rfl, hc⟩ := s.ctx.answerWord_context_cases w
    · exact .inl hc
    · exact .inr (.inr (.inl ⟨rfl, hc⟩))
    · exact .inr (.inr (.inr (.inl ⟨hf, b, rfl, hc⟩)))
    · exact .inr (.inr (.inr (.inr ⟨hf, rfl, hc⟩)))

end Sys2Proof.Machine
end

section
/-! PROOFS. The well-formed contexts of R26: reset, INIT, UPDATE_BYTE and FINALIZE each leave one. -/

namespace Sys2Proof.Machine

/-- Out of CREATED, a context with nothing buffered and BUF zero is well formed, whatever its lanes are. -/
theorem Context.WellFormed.of_empty {c : Context} (hfsm : c.fsm ≠ .created) (hbuf : c.buf = .zero)
    (hcursor : c.cursor = 0) : c.WellFormed where
  bufferClear k _ := by rw [hbuf, Block.zero_getElem]
  created h := absurd h hfsm
  finalized _ := ⟨hbuf, hcursor⟩

theorem Context.reset_wellFormed : Context.reset.WellFormed where
  bufferClear k _ := Block.zero_getElem k.val k.isLt
  created _ := ⟨rfl, rfl, rfl⟩
  finalized _ := ⟨rfl, rfl⟩

theorem Context.fresh_wellFormed : Context.fresh.WellFormed := .of_empty nofun rfl rfl

theorem Context.finalize_wellFormed (c : Context) : c.finalize.WellFormed := .of_empty nofun rfl rfl

/-- CURSOR below 135 counts up without wrapping (R18). -/
theorem Context.cursor_add_one_val {c : Context} (h : c.cursor ≠ 135) : (c.cursor + 1).val = c.cursor.val + 1 := by
  have hval : c.cursor.val ≠ 135 := fun hv => h (Fin.ext hv)
  exact Fin.val_add_one_of_lt' (by omega)

/-- An accepted UPDATE_BYTE writes at CURSOR and steps over that byte, or empties BUF (R75): past the new CURSOR, BUF
stays zero. -/
theorem Context.update_wellFormed {c : Context} (hfsm : c.fsm = .absorbing) (hwf : c.WellFormed) (b : Byte) :
    (c.update b).WellFormed := by
  by_cases hlast : c.cursor = 135
  · rw [update_of_eq hlast]
    exact .of_empty (by simp [hfsm]) rfl rfl
  · rw [update_of_ne hlast]
    refine ⟨fun k hk => ?_, by simp [hfsm], by simp [hfsm]⟩
    have hpast : c.cursor.val < k.val := (cursor_add_one_val hlast).symm.le.trans hk
    rw [Vector.getElem_set_ne (h := Nat.ne_of_lt hpast)]
    exact hwf.bufferClear k (Nat.le_of_lt hpast)

/-- Every step keeps the context well formed (R26). -/
theorem step_wellFormed {s t : State} (hwf : s.ctx.WellFormed) (h : step s = .next t) : t.ctx.WellFormed := by
  obtain hc | ⟨-, hc⟩ | ⟨-, hc⟩ | ⟨hf, b, -, hc⟩ | ⟨-, -, hc⟩ := step_context_cases h <;> rw [hc]
  · exact hwf
  · exact Context.reset_wellFormed
  · exact Context.fresh_wellFormed
  · exact Context.update_wellFormed hf hwf b
  · exact Context.finalize_wellFormed _

end Sys2Proof.Machine
end

section
/-! PROOFS. What a response shows of the hash context (R24, R25), and the register view as a host reads it. -/

namespace Sys2Proof.Machine

/-- Two contexts agree on all that R25 lets a response show: FSM, CURSOR and, in FINALIZED, lanes 0..3. -/
structure Context.ShowsSame (c c' : Context) : Prop where
  fsm : c.fsm = c'.fsm
  cursor : c.cursor = c'.cursor
  lanes : c.fsm = .finalized → ∀ i : Fin 25, i.val < 4 → c.lanes.at i = c'.lanes.at i

/-- The digest is in lanes 0..3 (R32). -/
theorem digestByte_congr {A A' : LaneArray} (h : ∀ i : Fin 25, i.val < 4 → A.at i = A'.at i) (j : Fin 32) :
    digestByte A j = digestByte A' j := by
  have hlow : j.val / 8 < 4 := by omega
  rw [digestByte, digestByte, h _ hlow]

theorem Context.ShowsSame.statusByte_eq {c c' : Context} (h : c.ShowsSame c') (field : StatusField) :
    c.statusByte field = c'.statusByte field := by
  cases field with
  | fsm => simp only [statusByte, fsmByte, h.fsm]
  | cursor => simp only [statusByte, cursorByte, h.cursor]

/-- The response to a command is a function of what R25 lets it show. -/
theorem Context.ShowsSame.answer_response_eq {c c' : Context} (h : c.ShowsSame c') (i : Instr) :
    (c.answer i).2 = (c'.answer i).2 := by
  cases i with
  | init => rfl
  | updateByte b => simp only [answer, ← h.fsm]; split <;> rfl
  | finalize => simp only [answer, ← h.fsm]; split <;> rfl
  | readDigest j =>
    cases hj : digestIndex j with
    | none => simp only [answer, hj]
    | some k =>
      by_cases hf : c.fsm = .finalized
      · simp only [answer, hj, ← h.fsm, digestByte_congr (h.lanes hf) k]
      · simp only [answer, hj, ← h.fsm, if_neg hf]
  | readStatus sel =>
    cases hsel : statusSelector sel with
    | none => simp only [answer, hsel]
    | some field => simp only [answer, hsel, h.statusByte_eq field]

theorem Context.ShowsSame.answerWord_response_eq {c c' : Context} (h : c.ShowsSame c') (w : CommandWord) :
    (c.answerWord w).2 = (c'.answerWord w).2 := by
  cases hd : decode w with
  | command i => simp only [answerWord, hd, h.answer_response_eq i]
  | illegal why => simp only [answerWord, hd]

/-- The low two bits of STATUS.FSM are the FSM code (R24). -/
theorem Context.fsmByte_low (c : Context) : c.fsmByte.extractLsb' 0 2 = c.fsm.code := by
  unfold fsmByte
  cases c.fsm <;> decide

/-- `DATA[7:2] = 0` in STATUS.FSM (R24). -/
theorem Context.fsmByte_high (c : Context) : c.fsmByte.extractLsb' 2 6 = 0 := by
  unfold fsmByte
  cases c.fsm <;> decide

/-- Code 3 is never held (R20). -/
theorem Fsm.code_ne_three (f : Fsm) : f.code ≠ 3 := by
  cases f <;> decide

/-- A host reads the lifecycle state back from STATUS.FSM. -/
theorem Context.ofCode_fsmByte (c : Context) : Fsm.ofCode (c.fsmByte.setWidth 2) = .next c.fsm := by
  unfold fsmByte
  cases c.fsm <;> rfl

/-- CURSOR fits its 8-bit register (R18). -/
theorem Context.cursorByte_toNat (c : Context) : c.cursorByte.toNat = c.cursor.val := by
  have hlt : c.cursor.val < 2 ^ 8 := by omega
  rw [cursorByte, BitVec.toNat_ofNat, Nat.mod_eq_of_lt hlt]

/-- READ_STATUS with a legal selector, in any state (R78). -/
theorem Context.answerWord_readStatus (c : Context) {sel : Byte} {field : StatusField}
    (h : statusSelector sel = some field) :
    c.answerWord (encode (.readStatus sel)) = (c, ⟨.ok, c.statusByte field⟩) := by
  unfold statusSelector at h
  split_ifs at h with hfsm hcursor <;> cases h
  · rw [hfsm]; rfl
  · rw [hcursor]; rfl

/-- Reading the register view issues two commands, and leaves the engine its context and the second response. -/
theorem hostStatus_eq (h : Session) :
    hostStatus h = .next
      (⟨{ h.engine with response := some ⟨.ok, h.engine.ctx.cursorByte⟩ },
        h.issued ++ [encode (.readStatus 0)] ++ [encode (.readStatus 1)], h.inputRead⟩,
        h.engine.ctx.fsm, h.engine.ctx.cursorByte) := by
  have hfsm : statusSelector 0 = some .fsm := rfl
  have hcursor : statusSelector 1 = some .cursor := rfl
  simp only [hostStatus, issue_eq, bindOutcome, State.afterWord, Context.answerWord_readStatus _ hfsm,
    Context.answerWord_readStatus _ hcursor, Context.statusByte, Context.ofCode_fsmByte]

end Sys2Proof.Machine
end

section
/-! PROOFS. The obligations of 10_state.md about the state, its lifecycle and what a host sees of it. -/

namespace Sys2Proof.Machine

/-- Settles O8: reset leaves nothing buffered and everything zero. -/
theorem resetIsWellFormed : Obligations.ResetIsWellFormed := Context.reset_wellFormed

/-- Settles O7: R26 holds at reset, and each of the five contexts a step can leave is well formed. -/
theorem everyStepKeepsTheStateWellFormed : Obligations.EveryStepKeepsTheStateWellFormed :=
  ⟨Context.reset_wellFormed, fun _ _ => step_wellFormed⟩

/-- Settles O4, from the contexts a step can leave: only reset, INIT and FINALIZE change FSM. -/
theorem lifecycleStateChangesOnlyAsTabulated : Obligations.LifecycleStateChangesOnlyAsTabulated := by
  intro s t h
  obtain hc | ⟨hin, hc⟩ | ⟨hin, hc⟩ | ⟨hf, b, -, hc⟩ | ⟨hf, hin, hc⟩ := step_context_cases h
  · rw [hc]
    exact ⟨.inl, .inl, .inl, absurd⟩
  · rw [hc]
    exact ⟨fun _ => .inr hin, nofun, nofun, fun _ _ => .inl ⟨hin, rfl⟩⟩
  · rw [hc]
    exact ⟨nofun, fun _ => .inr hin, nofun, fun _ _ => .inr ⟨hin, rfl⟩⟩
  · rw [hc, Context.update_fsm]
    exact ⟨.inl, .inl, .inl, absurd⟩
  · rw [hc]
    exact ⟨nofun, nofun, fun _ => .inr ⟨hf, hin⟩, fun _ hne => absurd rfl hne⟩

/-- Settles O6: a presented word is answered from what R25 lets a response show. -/
theorem hiddenStateNeverShowsInAResponse : Obligations.HiddenStateNeverShowsInAResponse := by
  intro s s' t t' w hfsm hcursor hlanes h h'
  have hsame : s.ctx.ShowsSame s'.ctx := ⟨hfsm, hcursor, hlanes⟩
  rw [step_present] at h h'
  cases h
  cases h'
  exact congrArg some (hsame.answerWord_response_eq w)

/-- Settles O5: the register view is the two READ_STATUS answers. -/
theorem registerViewShowsFsmAndCursor : Obligations.RegisterViewShowsFsmAndCursor := fun h =>
  ⟨_, hostStatus_eq h, rfl, h.engine.ctx.fsmByte_low, h.engine.ctx.fsmByte_high, h.engine.ctx.fsm.code_ne_three,
    h.engine.ctx.cursorByte_toNat⟩

end Sys2Proof.Machine
end

section
/-! PROOFS. Blocks and digests byte by byte (R31, R32): a byte of an XOR is the XOR of the bytes, and byte `k` of a
block's lane `i` is byte `8i + k` of the block. -/

namespace Sys2Proof.Machine

theorem byteOf_xor (v w : Lane) (k : Nat) : byteOf (v ^^^ w) k = byteOf v k ^^^ byteOf w k := by
  simp only [byteOf_eq_extract, BitVec.extractLsb'_xor]

/-- Byte `k` of a block's lane `i` is byte `8i + k` of the block (R31). -/
theorem Block.byteOf_lane (blk : Block) (i : Fin 17) (k : Fin 8) :
    byteOf (Block.lane blk i) k.val = blk[8 * i.val + k.val] :=
  byteOf_le64 (fun k => blk[8 * i.val + k.val]) k

theorem xorBlock_at_of_lt (A : LaneArray) (blk : Block) {i : Fin 25} (h : i.val < 17) :
    (xorBlock A blk).at i = A.at i ^^^ Block.lane blk ⟨i.val, h⟩ := by
  rw [xorBlock_at, dif_pos h]

theorem xorBlock_at_of_ge (A : LaneArray) (blk : Block) {i : Fin 25} (h : 17 ≤ i.val) :
    (xorBlock A blk).at i = A.at i := by
  rw [xorBlock_at, dif_neg (Nat.not_lt.2 h)]

/-- A state byte of the rate takes the block's byte of the same index (R31). -/
theorem xorBlock_stateByte_of_lt (A : LaneArray) (blk : Block) {j : Fin 200} (h : j.val < 136) :
    (xorBlock A blk).stateByte j = A.stateByte j ^^^ blk[j.val] := by
  have hlane : j.val / 8 < 17 := by omega
  have hbyte := Block.byteOf_lane blk ⟨j.val / 8, hlane⟩ ⟨j.val % 8, Nat.mod_lt _ (by decide)⟩
  simp only [Nat.div_add_mod] at hbyte
  rw [LaneArray.stateByte, xorBlock_at_of_lt A blk hlane, byteOf_xor, hbyte]
  rfl

/-- A state byte of the capacity stays (R31). -/
theorem xorBlock_stateByte_of_ge (A : LaneArray) (blk : Block) {j : Fin 200} (h : 136 ≤ j.val) :
    (xorBlock A blk).stateByte j = A.stateByte j := by
  have hlane : 17 ≤ j.val / 8 := by omega
  rw [LaneArray.stateByte, xorBlock_at_of_ge A blk hlane]
  rfl

/-- Digest byte `j` is state byte `j` (R32). -/
theorem squeeze_getElem (A : LaneArray) (j : Fin 32) : (squeeze A)[j.val] = A.stateByte ⟨j.val, by omega⟩ := by
  rw [squeeze, tabulate_getElem, Fin.ofNat_eq_cast, Fin.cast_val_eq_self]
  rfl

end Sys2Proof.Machine
end

section
/-! PROOFS. Which commands leave the context as they found it, and what a repeated command answers (R36). -/

namespace Sys2Proof.Machine

/-- An accepted UPDATE_BYTE always moves CURSOR: below 135 one up, at 135 back to 0 (R75). -/
theorem Context.update_ne_self (c : Context) (b : Byte) : c.update b ≠ c := by
  intro heq
  by_cases hlast : c.cursor = 135
  · have hzero : 0 = c.cursor := congrArg cursor ((update_of_eq hlast b).symm.trans heq)
    rw [hlast] at hzero
    exact absurd hzero (by decide)
  · have hup : c.cursor + 1 = c.cursor := congrArg cursor ((update_of_ne hlast b).symm.trans heq)
    have hval := cursor_add_one_val hlast
    rw [hup] at hval
    omega

theorem Context.answer_readDigest_fst (c : Context) (j : Byte) : (c.answer (.readDigest j)).1 = c := by
  simpa using c.answer_context_cases (.readDigest j)

theorem Context.answer_readStatus_fst (c : Context) (sel : Byte) : (c.answer (.readStatus sel)).1 = c := by
  simpa using c.answer_context_cases (.readStatus sel)

theorem Context.answer_updateByte {c : Context} (h : c.fsm = .absorbing) (b : Byte) :
    c.answer (.updateByte b) = (c.update b, ⟨.ok, 0⟩) := if_pos h

theorem Context.answer_finalize {c : Context} (h : c.fsm = .absorbing) :
    c.answer .finalize = (c.finalize, ⟨.ok, 0⟩) := if_pos h

/-- Out of ABSORBING, FINALIZE is a StateError (R90). -/
theorem Context.answer_finalize_of_ne {c : Context} (h : c.fsm ≠ .absorbing) :
    c.answer .finalize = (c, ⟨.errState, 0⟩) := if_neg h

/-- A command that is not answered OK leaves the context as it found it (R93). -/
theorem Context.answer_fst_of_not_ok {c : Context} {i : Instr} (h : (c.answer i).2.code ≠ .ok) :
    (c.answer i).1 = c := by
  obtain hc | ⟨rfl, -⟩ | ⟨hf, b, rfl, -⟩ | ⟨hf, rfl, -⟩ := c.answer_context_cases i
  · exact hc
  · exact absurd rfl h
  · exact absurd (by rw [answer_updateByte hf]) h
  · exact absurd (by rw [answer_finalize hf]) h

theorem Context.answerWord_fst_of_not_ok {c : Context} {w : CommandWord} (h : (c.answerWord w).2.code ≠ .ok) :
    (c.answerWord w).1 = c := by
  unfold answerWord at h ⊢
  cases hd : decode w with
  | command i => rw [hd] at h; exact answer_fst_of_not_ok h
  | illegal why => rfl

/-- In FINALIZED every word but INIT's leaves the context as it is (R77). -/
theorem Context.answerWord_fst_of_finalized {c : Context} {w : CommandWord} (hf : c.fsm = .finalized)
    (hw : decode w ≠ .command .init) : (c.answerWord w).1 = c := by
  have hne : c.fsm ≠ .absorbing := by rw [hf]; decide
  obtain hc | ⟨rfl, -⟩ | ⟨habs, -⟩ | ⟨habs, -⟩ := c.answerWord_context_cases w
  · exact hc
  · exact absurd (by decide) hw
  · exact absurd habs hne
  · exact absurd habs hne

/-- In FINALIZED a sequence of words without INIT leaves the context as it is (R77). -/
theorem State.afterWords_ctx_of_finalized {s : State} (ws : List CommandWord) (hf : s.ctx.fsm = .finalized)
    (hws : ∀ w ∈ ws, decode w ≠ .command .init) : (s.afterWords ws).ctx = s.ctx := by
  induction ws generalizing s with
  | nil => rfl
  | cons w ws ih =>
    obtain ⟨hw, hws⟩ := List.forall_mem_cons.1 hws
    have hctx : (s.afterWord w).ctx = s.ctx := Context.answerWord_fst_of_finalized hf hw
    rw [afterWords_cons, ih (by rw [hctx, hf]) hws, hctx]

/-- A command whose answer on the context it leaves is the answer it gave runs again with the same result. -/
theorem exec_again {i : Instr} {s t : State} (hans : (s.ctx.answer i).1.answer i = s.ctx.answer i)
    (h : exec i s = .next t) : exec i t = .next t := by
  rw [exec_eq_answer] at h
  cases h
  rw [exec_eq_answer, hans]

/-- A command that leaves the context as it found it may be repeated. -/
theorem exec_again_of_ctx_eq {i : Instr} {s t : State} (hctx : (s.ctx.answer i).1 = s.ctx)
    (h : exec i s = .next t) : t.ctx = s.ctx ∧ exec i t = .next t := by
  refine ⟨?_, exec_again (by rw [hctx]) h⟩
  rw [exec_eq_answer] at h
  cases h
  exact hctx

end Sys2Proof.Machine
end

section
/-! PROOFS. Order: the inbox is taken event by event from the front (R37), and the scheduler of two streams gives their
interleavings (R38). -/

namespace Sys2Proof.Machine

/-- A step takes the command at the port. -/
theorem step_of_command {s : State} {w : CommandWord} {rest : List HostEvent} (h : s.inbox = .command w :: rest) :
    step s = .next ((s.taken rest).afterWord w) := by
  rw [step, acceptEvent, h]
  exact executeWord_eq w (s.taken rest)

theorem State.afterWords_append (s : State) (xs ys : List CommandWord) :
    s.afterWords (xs ++ ys) = (s.afterWords xs).afterWords ys := List.foldl_append

/-- As many steps as there are commands at the front of the port run them in order, each on what the ones before it
left. -/
theorem runSteps_of_commands {s : State} {ws : List CommandWord} {rest : List HostEvent}
    (h : s.inbox = ws.map .command ++ rest) :
    runSteps ws.length s = .next ((s.taken rest).afterWords ws) := by
  induction ws generalizing s with
  | nil => cases h; rfl
  | cons w ws ih =>
    have hfirst := step_of_command h
    have hothers : ((s.taken (ws.map .command ++ rest)).afterWord w).inbox = ws.map .command ++ rest := rfl
    rw [List.length_cons, runSteps, hfirst]
    exact ih hothers

theorem Interleaving.nil_left {α : Type} (ys : List α) : Interleaving [] ys ys := by
  induction ys with
  | nil => exact .nil
  | cons y ys ih => exact .right ih

/-- One stream after the other is an interleaving. -/
theorem Interleaving.append {α : Type} (xs ys : List α) : Interleaving xs ys (xs ++ ys) := by
  induction xs with
  | nil => exact .nil_left ys
  | cons x xs ih => exact .left ih

theorem interleaving_interleave {α : Type} (schedule : List Bool) (xs ys : List α) :
    Interleaving xs ys (interleave schedule xs ys) := by
  fun_induction interleave schedule xs ys with
  | case1 schedule ys => exact .nil_left ys
  | case2 xs ys => exact .append xs ys
  | case3 ys t x xs ih => exact .left ih
  | case4 t x xs ih => exact .left ih
  | case5 t x xs y ys ih => exact .right ih

@[simp] theorem interleave_nil_left {α : Type} (schedule : List Bool) (ys : List α) :
    interleave schedule [] ys = ys := by
  rw [interleave]

/-- The schedule that names, turn by turn, the stream an interleaving takes from. -/
theorem Interleaving.exists_schedule {α : Type} {xs ys zs : List α} (h : Interleaving xs ys zs) :
    ∃ schedule, interleave schedule xs ys = zs := by
  induction h with
  | nil => exact ⟨[], rfl⟩
  | @left x xs ys zs _ ih =>
    obtain ⟨schedule, rfl⟩ := ih
    exact ⟨true :: schedule, by rw [interleave]⟩
  | @right y xs ys zs _ ih =>
    obtain ⟨schedule, rfl⟩ := ih
    refine ⟨false :: schedule, ?_⟩
    cases xs with
    | nil => simp
    | cons x xs => rw [interleave]

end Sys2Proof.Machine
end

section
/-! PROOFS. Several engines (R39, R100): a step of one engine of a platform is its own step, written back to its
place. -/

namespace Sys2Proof.Machine

/-- No step of the engine stops. -/
theorem neverStops (s : State) : NeverStops s := by
  match h : s.inbox with
  | [] => exact ⟨s, by rw [step, acceptEvent, h]⟩
  | .reset :: rest => exact ⟨(s.taken rest).hardwareReset, by rw [step, acceptEvent, h]⟩
  | .command w :: rest => exact ⟨(s.taken rest).afterWord w, step_of_command h⟩

variable {n : Nat} {p : Platform n} {j k : Fin n} {t u : State}

/-- The platform with the state of one engine replaced. -/
def Platform.setEngine (p : Platform n) (j : Fin n) (t : State) : Platform n := ⟨p.engines.set j.val t⟩

@[simp] theorem Platform.setEngine_self : (p.setEngine j t).engines[j.val] = t := Vector.getElem_set_self j.isLt

theorem Platform.setEngine_of_ne (h : j ≠ k) : (p.setEngine j t).engines[k.val] = p.engines[k.val] :=
  Vector.getElem_set_ne j.isLt k.isLt (Fin.val_ne_of_ne h)

theorem Platform.setEngine_comm (h : j ≠ k) :
    (p.setEngine j t).setEngine k u = (p.setEngine k u).setEngine j t :=
  congrArg Platform.mk (Vector.set_comm _ _ (Fin.val_ne_of_ne h))

theorem Platform.step_eq (h : Machine.step p.engines[j.val] = .next t) : p.step j = .next (p.setEngine j t) := by
  rw [Platform.step, h]
  rfl

/-- The steps of two engines leave the same platform in either order (R39). -/
theorem Platform.step_comm (hjk : j ≠ k) (hj : Machine.step p.engines[j.val] = .next t)
    (hk : Machine.step p.engines[k.val] = .next u) :
    (p.setEngine j t).step k = .next ((p.setEngine j t).setEngine k u) ∧
    (p.setEngine k u).step j = .next ((p.setEngine j t).setEngine k u) := by
  constructor
  · exact step_eq (by rw [setEngine_of_ne hjk, hk])
  · rw [setEngine_comm hjk]
    exact step_eq (by rw [setEngine_of_ne hjk.symm, hj])

/-- Under any schedule each engine takes its own turns alone (R39). -/
theorem Platform.run_engines (schedule : List (Fin n)) (p : Platform n) :
    ∃ q : Platform n, run schedule p = .next q ∧
      ∀ k : Fin n, runSteps (schedule.count k) p.engines[k.val] = .next q.engines[k.val] := by
  induction schedule generalizing p with
  | nil => exact ⟨p, rfl, fun k => rfl⟩
  | cons j schedule ih =>
    obtain ⟨t, ht⟩ := neverStops p.engines[j.val]
    obtain ⟨q, hrun, hcounts⟩ := ih (p.setEngine j t)
    refine ⟨q, by rw [run, step_eq ht]; exact hrun, fun k => ?_⟩
    rw [← hcounts k]
    by_cases hjk : j = k
    · subst hjk
      rw [List.count_cons_self, runSteps, ht, setEngine_self]
      rfl
    · rw [List.count_cons_of_ne hjk, setEngine_of_ne hjk]

end Sys2Proof.Machine
end

section
/-! PROOFS. The obligations of 20_memory.md. -/

namespace Sys2Proof.Machine

/-- Settles O10: the squeeze reads the state bytes in order. -/
theorem digestBytesAreStateBytes : Obligations.DigestBytesAreStateBytes := fun A j =>
  ⟨squeeze_getElem A j, (squeeze_getElem A j).trans (byteOf_eq_extract _ _)⟩

/-- Settles O9, by lanes and then by the bytes of a lane. -/
theorem absorptionXorsBytesLittleEndian : Obligations.AbsorptionXorsBytesLittleEndian := by
  refine fun A blk => ⟨fun j => ?_, fun i => xorBlock_at_of_lt A blk i.isLt, fun i => xorBlock_at_of_ge A blk⟩
  by_cases hrate : j.val < 136
  · rw [dif_pos hrate, xorBlock_stateByte_of_lt A blk hrate]
  · rw [dif_neg hrate, xorBlock_stateByte_of_ge A blk (Nat.not_lt.1 hrate)]

/-- Settles O11: UPDATE_BYTE moves CURSOR, FINALIZED lasts until INIT, and the other commands leave a context on which
they answer the same again. -/
theorem onlyReadsAndInitAreIdempotent : Obligations.OnlyReadsAndInitAreIdempotent := by
  refine ⟨fun s t b h hf => ?_, fun s t ws g rs h hf hws hrun => ?_, fun s t h => exec_again rfl h,
    fun s t j h => exec_again_of_ctx_eq (s.ctx.answer_readDigest_fst j) h,
    fun s t sel h => exec_again_of_ctx_eq (s.ctx.answer_readStatus_fst sel) h, fun s t w r h hr hcode => ?_⟩
  · rw [exec_eq_answer, Context.answer_updateByte hf] at h
    cases h
    exact s.ctx.update_ne_self b
  · have hfinal : t.ctx.fsm = .finalized := by
      rw [exec_eq_answer, Context.answer_finalize hf] at h
      cases h
      rfl
    rw [runWords_eq] at hrun
    cases hrun
    have hctx : (t.afterWords ws).ctx = t.ctx := State.afterWords_ctx_of_finalized ws hfinal hws
    have hne : (t.afterWords ws).ctx.fsm ≠ .absorbing := by rw [hctx, hfinal]; decide
    exact (exec_eq_answer _ _).trans (by rw [Session.start, Context.answer_finalize_of_ne hne])
  · rw [step_present] at h
    cases h
    cases hr
    exact Context.answerWord_fst_of_not_ok hcode

/-- Settles O12: a program's state and responses are folds over its words, and so is what that many steps leave. -/
theorem commandsTakeEffectInIssueOrder : Obligations.CommandsTakeEffectInIssueOrder := by
  constructor
  · intro xs ys h
    simp only [runWords_eq, bindOutcome, State.afterWords_append, Context.responses_append, List.append_assoc]
  · exact fun ws s rest hin => ⟨_, _, runWords_eq ws _, runSteps_of_commands hin⟩

/-- Settles O13: an interleaving names its schedule, and every schedule gives an interleaving. -/
theorem everyInterleavingIsAdmitted : Obligations.EveryInterleavingIsAdmitted := by
  refine fun xs ys zs => ⟨Interleaving.exists_schedule, ?_⟩
  rintro ⟨schedule, rfl⟩
  exact interleaving_interleave schedule xs ys

/-- Settles O14: a step of a platform replaces one engine by what its own step leaves. -/
theorem enginesShareNoState : Obligations.EnginesShareNoState := by
  refine fun n => ⟨fun j => Vector.getElem_replicate .., fun p j => ?_,
    fun p j k e hkj => Platform.setEngine_of_ne hkj.symm, fun p j k hjk => ?_, Platform.run_engines⟩
  · obtain ⟨t, ht⟩ := neverStops p.engines[j.val]
    exact ⟨p.setEngine j t, Platform.step_eq ht, by rw [Platform.setEngine_self, ht],
      fun k hkj => Platform.setEngine_of_ne hkj.symm⟩
  · obtain ⟨t, ht⟩ := neverStops p.engines[j.val]
    obtain ⟨u, hu⟩ := neverStops p.engines[k.val]
    obtain ⟨hqk, hrj⟩ := Platform.step_comm hjk ht hu
    exact ⟨p.setEngine j t, p.setEngine k u, _, Platform.step_eq ht, Platform.setEngine_of_ne hjk,
      Platform.step_eq hu, Platform.setEngine_of_ne hjk.symm, hqk, hrj⟩

end Sys2Proof.Machine
end

section
/-! PROOFS. The decoder and the opcode map (R45 to R49): a word decodes to a command exactly if it is that command's
word and the command is well formed, and a row of the map fixes the opcode and leaves low bits of the operand free. -/

namespace Sys2Proof.Machine

/-- A command that a word decodes to is well formed (R46, R47). -/
theorem wellFormed_of_decode {w : CommandWord} {i : Instr} (h : decode w = .command i) : i.wellFormed := by
  unfold decode at h
  split_ifs at h <;> cases h
  · rfl
  · rfl
  · rfl
  · exact decide_eq_true ‹imm8Of w < 0x20›
  · exact decide_eq_true ‹imm8Of w < 0x02›

/-- In the word of a well-formed command, the opcode picks the command's branch of R49 and the operand is admitted. -/
theorem decode_encode {i : Instr} (h : i.wellFormed) : decode (encode i) = .command i := by
  cases i with
  | init => rfl
  | updateByte b => simp [decode, encode, Instr.opcode, Instr.operand]
  | finalize => rfl
  | readDigest j => simpa [decode, encode, Instr.opcode, Instr.operand] using of_decide_eq_true h
  | readStatus sel => simpa [decode, encode, Instr.opcode, Instr.operand] using of_decide_eq_true h

/-- R49 by the fields of the word (R41). -/
theorem decode_eq_command_iff {w : CommandWord} {i : Instr} :
    decode w = .command i ↔ opOf w = i.opcode ∧ imm8Of w = i.operand ∧ i.wellFormed := by
  constructor
  · intro h
    rw [← encode_eq_of_decode h]
    exact ⟨opOf_commandWord _ _, imm8Of_commandWord _ _, wellFormed_of_decode h⟩
  · rintro ⟨hop, himm, hwf⟩
    rw [← commandWord_fields w, hop, himm]
    exact decode_encode hwf

/-- No bit from `k` up is set exactly in a number below `2 ^ k`. -/
theorem and_allOnes_shiftLeft_eq_zero_iff {n : Nat} (x : BitVec n) (k : Nat) :
    x &&& BitVec.allOnes n <<< k = 0#n ↔ x.toNat < 2 ^ k := by
  have hlt : x.toNat / 2 ^ k * 2 ^ k < 2 ^ n := (Nat.div_mul_le_self _ _).trans_lt x.isLt
  rw [← BitVec.shiftLeft_ushiftRight, ← BitVec.toNat_inj, BitVec.toNat_shiftLeft, BitVec.toNat_ushiftRight,
    Nat.shiftRight_eq_div_pow, Nat.shiftLeft_eq, Nat.mod_eq_of_lt hlt]
  simp

/-- The words of a row of R45 whose operand has `k` free low bits. -/
theorem and_rowMask_eq_iff (w : CommandWord) (op : Byte) (k : Nat) :
    w &&& commandWord 0xFF (BitVec.allOnes 8 <<< k) = commandWord op 0 ↔ opOf w = op ∧ (imm8Of w).toNat < 2 ^ k := by
  have hop : opOf w &&& 0xFF = opOf w := BitVec.and_allOnes
  have hfields := commandWord_masked (opOf w) (imm8Of w) 0xFF (BitVec.allOnes 8 <<< k) op 0
  rw [commandWord_fields, hop] at hfields
  rw [hfields]
  exact and_congr_right' (and_allOnes_shiftLeft_eq_zero_iff _ k)

/-- The row of R45 with opcode `op` and `k` free operand bits admits the words of the command `i` of that opcode, if
those are the bits that `i` leaves free. -/
theorem row_iff_decode {w : CommandWord} {i : Instr} (op : Byte) (k : Nat) (hop : i.opcode = op)
    (hfree : (imm8Of w).toNat < 2 ^ k ↔ imm8Of w = i.operand ∧ i.wellFormed) :
    w &&& commandWord 0xFF (BitVec.allOnes 8 <<< k) = commandWord op 0 ↔ decode w = .command i := by
  rw [decode_eq_command_iff, and_rowMask_eq_iff, hop, hfree]

theorem initRow_iff (w : CommandWord) : w &&& 0xFFFF = 0x0100 ↔ decode w = .command .init :=
  row_iff_decode 0x01 0 rfl (by simp [Instr.operand, Instr.wellFormed, ← BitVec.toNat_inj])

theorem updateByteRow_iff (w : CommandWord) :
    w &&& 0xFF00 = 0x0200 ↔ decode w = .command (.updateByte (imm8Of w)) :=
  row_iff_decode 0x02 8 rfl (by simp [Instr.operand, Instr.wellFormed, (imm8Of w).isLt])

theorem finalizeRow_iff (w : CommandWord) : w &&& 0xFFFF = 0x0300 ↔ decode w = .command .finalize :=
  row_iff_decode 0x03 0 rfl (by simp [Instr.operand, Instr.wellFormed, ← BitVec.toNat_inj])

theorem readDigestRow_iff (w : CommandWord) :
    w &&& 0xFFE0 = 0x0400 ↔ decode w = .command (.readDigest (imm8Of w)) :=
  row_iff_decode 0x04 5 rfl (by simp [Instr.operand, Instr.wellFormed, BitVec.lt_def])

theorem readStatusRow_iff (w : CommandWord) :
    w &&& 0xFFFE = 0x0500 ↔ decode w = .command (.readStatus (imm8Of w)) :=
  row_iff_decode 0x05 1 rfl (by simp [Instr.operand, Instr.wellFormed, BitVec.lt_def])

/-- A command's word matches one row of R45, any other word none. -/
theorem matchingRows_eq (w : CommandWord) : matchingRows w = if (decode w).legal then 1 else 0 := by
  simp only [matchingRows, opcodeMap, OpcodeRow.admits, List.countP_cons, List.countP_nil, beq_iff_eq, initRow_iff,
    updateByteRow_iff, finalizeRow_iff, readDigestRow_iff, readStatusRow_iff]
  cases hd : decode w with
  | illegal why => simp [Decoded.legal]
  | command i =>
    obtain ⟨-, himm, -⟩ := decode_eq_command_iff.1 hd
    cases i <;> simp [Decoded.legal, himm, Instr.operand]

theorem legal_iff_exists_command (d : Decoded) : d.legal ↔ ∃ i, d = .command i := by
  cases d <;> simp [Decoded.legal]

/-- The opcodes of R45 are `0x01..0x05`; the others are reserved (R48). -/
theorem opcode_cases (op : Byte) :
    op = 0x00 ∨ op = 0x01 ∨ op = 0x02 ∨ op = 0x03 ∨ op = 0x04 ∨ op = 0x05 ∨ 0x06 ≤ op := by
  bv_omega

/-- An opcode above those of R45 is reserved (R48). -/
theorem decode_of_six_le {w : CommandWord} (h : 0x06 ≤ opOf w) : decode w = .illegal .reservedOpcode := by
  have hne : ∀ op < 0x06#8, opOf w ≠ op := by
    rintro op hlt rfl
    exact BitVec.not_le.2 hlt h
  simp [decode, hne]

/-- The illegal words, opcode by opcode (R46, R47, R48). -/
theorem illegal_iff (w : CommandWord) :
    (((opOf w = 0x01 ∨ opOf w = 0x03) ∧ imm8Of w ≠ 0x00) ∨ (opOf w = 0x04 ∧ 0x20 ≤ imm8Of w) ∨
      (opOf w = 0x05 ∧ 0x02 ≤ imm8Of w) ∨ opOf w = 0x00 ∨ 0x06 ≤ opOf w) ↔ ∃ why, decode w = .illegal why := by
  obtain hop | hop | hop | hop | hop | hop | hop := opcode_cases (opOf w)
  · simp [decode, hop]
  · by_cases himm : imm8Of w = 0#8 <;> simp [decode, hop, himm]
  · simp [decode, hop]
  · by_cases himm : imm8Of w = 0#8 <;> simp [decode, hop, himm]
  · by_cases himm : imm8Of w < 32#8 <;> simp [decode, hop, himm, ← BitVec.not_lt]
  · by_cases himm : imm8Of w < 2#8 <;> simp [decode, hop, himm, ← BitVec.not_lt]
  · exact iff_of_true (.inr (.inr (.inr (.inr hop)))) ⟨_, decode_of_six_le hop⟩

end Sys2Proof.Machine
end

section
/-! PROOFS. The form of a response (R43): which code it can carry, and when its data is zero. -/

namespace Sys2Proof.Machine

/-- Code 3 is never returned (R43). -/
theorem RspCode.code_ne_three (c : RspCode) : c.code ≠ 3 := by
  cases c <;> decide

/-- Only a read that is answered OK has data (R43, R93). -/
theorem Context.answer_data_cases (c : Context) (i : Instr) :
    (c.answer i).2.data = 0 ∨
    ((c.answer i).2.code = .ok ∧ ((∃ j, i = .readDigest j) ∨ ∃ sel, i = .readStatus sel)) := by
  cases i with
  | init => exact .inl rfl
  | updateByte b => by_cases hf : c.fsm = .absorbing <;> simp [answer, hf]
  | finalize => by_cases hf : c.fsm = .absorbing <;> simp [answer, hf]
  | readDigest j =>
    cases hj : digestIndex j <;> by_cases hf : c.fsm = .finalized <;> simp [answer, hj, hf]
  | readStatus sel => cases hsel : statusSelector sel <;> simp [answer, hsel]

theorem Context.answerWord_data_cases (c : Context) (w : CommandWord) :
    (c.answerWord w).2.data = 0 ∨
    ((c.answerWord w).2.code = .ok ∧
      ((∃ j, decode w = .command (.readDigest j)) ∨ ∃ sel, decode w = .command (.readStatus sel))) := by
  cases hd : decode w with
  | illegal why => left; simp [answerWord, hd]
  | command i => simpa [answerWord, hd] using c.answer_data_cases i

theorem Context.answerWord_of_illegal {c : Context} {w : CommandWord} {why : IllegalReason}
    (h : decode w = .illegal why) : c.answerWord w = (c, ⟨.errIllegal, 0⟩) := by
  simp [answerWord, h]

end Sys2Proof.Machine
end

section
/-! PROOFS. The obligations of 30_encoding.md. -/

namespace Sys2Proof.Machine

/-- Settles O18: the fields of the word are the command's opcode and operand, and R49 reads them back. -/
theorem decodeOfEncodeIsTheCommand : Obligations.DecodeOfEncodeIsTheCommand := fun _ => decode_encode

/-- Settles O19: R49 answers a command only after its operand check, and the word is its two fields. -/
theorem encodeOfDecodeIsTheWord : Obligations.EncodeOfDecodeIsTheWord := fun _ _ h =>
  ⟨wellFormed_of_decode h, encode_eq_of_decode h⟩

/-- Settles O16: each row by the fields it fixes, and their number by what the word decodes to. -/
theorem wordsDecodeByTheirOpcodeRow : Obligations.WordsDecodeByTheirOpcodeRow := by
  refine fun w => ⟨initRow_iff w, updateByteRow_iff w, finalizeRow_iff w, readDigestRow_iff w, readStatusRow_iff w, ?_⟩
  rw [← legal_iff_exists_command, matchingRows_eq]
  cases (decode w).legal <;> decide

/-- Settles O17: an illegal word changes the response port alone. -/
theorem illegalWordsAreRejectedUnchanged : Obligations.IllegalWordsAreRejectedUnchanged := by
  refine fun s w rest hin => ⟨illegal_iff w, fun why hd => ?_⟩
  rw [step_of_command hin, State.afterWord, Context.answerWord_of_illegal hd]
  rfl

/-- Settles O15: a presented word leaves its one answer at the response port. -/
theorem everyCommandGetsOneResponse : Obligations.EveryCommandGetsOneResponse := by
  refine ⟨rfl, rfl, rfl, fun s w => ⟨_, _, step_present s w, rfl, rfl, ?_⟩⟩
  obtain ⟨hz, hcode, hdata⟩ := Response.word_fields (s.ctx.answerWord w).2.code (s.ctx.answerWord w).2.data
  refine ⟨hz, hcode, hdata, RspCode.code_ne_three _, Response.ofWord_word _,
    fun hne => ⟨?_, Context.answerWord_fst_of_not_ok hne⟩, fun hj hsel => ?_⟩
  · obtain h | ⟨hok, -⟩ := s.ctx.answerWord_data_cases w
    · exact h
    · exact absurd hok hne
  · obtain h | ⟨-, ⟨j, h⟩ | ⟨sel, h⟩⟩ := s.ctx.answerWord_data_cases w
    · exact h
    · exact absurd h (hj j)
    · exact absurd h (hsel sel)

/-- Settles O20: the decoder runs on six fixed words. -/
theorem writtenOutWordsDecode : Obligations.WrittenOutWordsDecode := by
  unfold Obligations.WrittenOutWordsDecode
  decide

end Sys2Proof.Machine
end

section
/-! PROOFS. The five steps of the round (40_permutation.md R55 to R61): what each leaves in a lane, and in a bit of it.
PI is a relabelling of positions, so what R58 and R63 say of it are facts about one permutation of the 25 positions. -/

namespace Sys2Proof.Machine

/-! ## THETA -/

@[simp] theorem columnParity_get (A : LaneArray) (x : Fin 5) :
    (columnParity A).get x = A.lane x 0 ^^^ A.lane x 1 ^^^ A.lane x 2 ^^^ A.lane x 3 ^^^ A.lane x 4 := by
  simp [columnParity]

theorem columnParity_getLsbD (A : LaneArray) (x : Fin 5) (z : Nat) :
    ((columnParity A).get x).getLsbD z = axis.foldl (fun b y => b ^^ (A.lane x y).getLsbD z) false := by
  simp [axis]

@[simp] theorem thetaEffect_get (C : Row) (x : Fin 5) :
    (thetaEffect C).get x = C.get (x + 4) ^^^ rol64 (C.get (x + 1)) 1 := by
  simp [thetaEffect]

theorem xorColumns_lane (A : LaneArray) (D : Row) (x y : Fin 5) :
    (xorColumns A D).lane x y = A.lane x y ^^^ D.get x :=
  LaneArray.lane_ofXY ..

theorem theta_lane (A : LaneArray) (x y : Fin 5) :
    (theta A).lane x y = A.lane x y ^^^ (thetaEffect (columnParity A)).get x :=
  xorColumns_lane ..

/-- Bit `z` of a rotated lane is the bit that the rotation brings there (R10, read backward). -/
theorem rol64_getLsbD (v : Lane) {n z : Nat} (hn : n < 64) (hz : z < 64) :
    (rol64 v n).getLsbD z = v.getLsbD ((z + (64 - n)) % 64) := by
  have hback : ((z + (64 - n)) % 64 + n) % 64 = z := by omega
  have hbit := rol64_getLsbD_add_mod v hn (Nat.mod_lt (z + (64 - n)) (by decide))
  rwa [hback] at hbit

/-- THETA XORs into a bit the bits of two columns: one of its own slice, and one of the slice below (R55). -/
theorem theta_getLsbD (A : LaneArray) (x y : Fin 5) {z : Nat} (hz : z < 64) :
    ((theta A).lane x y).getLsbD z = ((A.lane x y).getLsbD z ^^
      (((columnParity A).get (x + 4)).getLsbD z ^^ ((columnParity A).get (x + 1)).getLsbD ((z + 63) % 64))) := by
  rw [theta_lane, thetaEffect_get, BitVec.getLsbD_xor, BitVec.getLsbD_xor, rol64_getLsbD _ (by decide) hz]

/-- An XOR of pairs is the XOR of the two XORs. -/
theorem foldl_xor_xor {α : Type} (f g : α → Bool) (l : List α) (b c d : Bool) :
    l.foldl (fun b v => b ^^ f v ^^ g v) (b ^^ (c ^^ d)) =
      (b ^^ (l.foldl (fun c v => c ^^ f v) c ^^ l.foldl (fun d v => d ^^ g v) d)) := by
  induction l generalizing c d with
  | nil => rfl
  | cons v l ih =>
    have hhead : (b ^^ (c ^^ d) ^^ f v ^^ g v) = (b ^^ ((c ^^ f v) ^^ (d ^^ g v))) := by
      simp only [Bool.xor_assoc, Bool.xor_left_comm]
    rw [List.foldl_cons, List.foldl_cons, List.foldl_cons, hhead, ih]

@[simp] theorem zero_rol64 (n : Nat) : rol64 0#64 n = 0#64 := by simp [rol64]

/-- Even parity everywhere makes THETA's effect vanish (R55). -/
theorem theta_of_columnParity_eq_zero {A : LaneArray} (h : ∀ x, (columnParity A).get x = 0) : theta A = A :=
  LaneArray.ext_lane fun x y => by
    rw [theta_lane, thetaEffect_get, h, h]
    simp

/-! ## RHO -/

@[simp] theorem rho_lane (A : LaneArray) (x y : Fin 5) : (rho A).lane x y = rol64 (A.lane x y) (rhoOffset x y) :=
  LaneArray.lane_ofXY ..

theorem rhoOffset_lt (x y : Fin 5) : rhoOffset x y < 64 := Fin.isLt _

theorem rhoOffset_eq_zero_iff : ∀ x y : Fin 5, rhoOffset x y = 0 ↔ x = 0 ∧ y = 0 := by decide

theorem rho_lane_zero (A : LaneArray) : (rho A).lane 0 0 = A.lane 0 0 := by
  rw [rho_lane, (rhoOffset_eq_zero_iff 0 0).2 ⟨rfl, rfl⟩, rol64_zero]

/-! ## PI -/

/-- R58's mapping of positions, from an output lane to the input lane it is read from; its inverse is R58's forward
mapping, from an input lane to the output lane it goes to. -/
def piPosition : Fin 5 × Fin 5 ≃ Fin 5 × Fin 5 where
  toFun p := (p.1 + 3 * p.2, p.1)
  invFun p := (p.2, 2 * p.1 + 3 * p.2)
  left_inv := by decide
  right_inv := by decide

/-- The lane at a position given as a pair. -/
def LaneArray.atPosition (A : LaneArray) (p : Fin 5 × Fin 5) : Lane := A.lane p.1 p.2

theorem pi_atPosition (A : LaneArray) (p : Fin 5 × Fin 5) : (pi A).atPosition p = A.atPosition (piPosition p) :=
  LaneArray.lane_ofXY ..

theorem pi_atPosition_symm (A : LaneArray) (p : Fin 5 × Fin 5) :
    (pi A).atPosition (piPosition.symm p) = A.atPosition p := by
  rw [pi_atPosition, Equiv.apply_symm_apply]

theorem LaneArray.ext_atPosition {A B : LaneArray} (h : ∀ p, A.atPosition p = B.atPosition p) : A = B :=
  LaneArray.ext_lane fun x y => h (x, y)

theorem LaneArray.atPosition_setLane (A : LaneArray) (x y : Fin 5) (v : Lane) (p : Fin 5 × Fin 5) :
    (A.setLane x y v).atPosition p = if p = (x, y) then v else A.atPosition p := by
  simp [LaneArray.atPosition, Prod.ext_iff]

/-- A relabelling of positions by a bijection is a bijection on arrays. -/
theorem pi_bijective : Function.Bijective pi := by
  constructor
  · intro A B h
    refine LaneArray.ext_atPosition fun p => ?_
    rw [← pi_atPosition_symm A, h, pi_atPosition_symm]
  · intro B
    refine ⟨.ofXY fun x y => B.atPosition (piPosition.symm (x, y)), LaneArray.ext_atPosition fun p => ?_⟩
    rw [pi_atPosition, LaneArray.atPosition, LaneArray.lane_ofXY, Prod.mk.eta, Equiv.symm_apply_apply]

/-! ## CHI -/

@[simp] theorem chi_lane (A : LaneArray) (x y : Fin 5) :
    (chi A).lane x y = A.lane x y ^^^ (~~~(A.lane (x + 1) y) &&& A.lane (x + 2) y) :=
  LaneArray.lane_ofXY ..

/-- A row of five equal lanes is unchanged: `NOT v AND v` is 0. The rows of zeros and of ones of R60 are such rows. -/
theorem chi_lane_of_equal_lanes {A : LaneArray} {y : Fin 5} {v : Lane} (h : ∀ x, A.lane x y = v) (x : Fin 5) :
    (chi A).lane x y = v := by
  simp [h, BitVec.and_comm]

/-! ## IOTA -/

theorem iota_eq_setLane (A : LaneArray) (ir : Fin 24) :
    iota A ir = A.setLane 0 0 (A.lane 0 0 ^^^ roundConstant ir) := rfl

@[simp] theorem iota_lane (A : LaneArray) (ir : Fin 24) (x y : Fin 5) :
    (iota A ir).lane x y = if x = 0 ∧ y = 0 then A.lane 0 0 ^^^ roundConstant ir else A.lane x y := by
  rw [iota_eq_setLane, LaneArray.lane_setLane]

/-! ## The zero state -/

@[simp] theorem theta_zero : theta .zero = .zero := theta_of_columnParity_eq_zero fun x => by simp

@[simp] theorem rho_zero : rho .zero = .zero := LaneArray.ext_lane fun x y => by simp

@[simp] theorem pi_zero : pi .zero = .zero := LaneArray.ext_atPosition fun p => by
  rw [pi_atPosition]
  simp [LaneArray.atPosition]

@[simp] theorem chi_zero : chi .zero = .zero := LaneArray.ext_lane fun x y => by simp

theorem index_eq_zero_iff (i : Fin 25) : i = 0 ↔ xOfIndex i = 0 ∧ yOfIndex i = 0 := by
  simp only [xOfIndex, yOfIndex, Fin.ext_iff, Fin.val_zero]
  omega

/-- A round of the zero state leaves IOTA's constant alone (R65). -/
theorem keccakRound_zero_at (ir : Fin 24) (i : Fin 25) :
    (keccakRound .zero ir).at i = if i = 0 then roundConstant ir else 0 := by
  simp [keccakRound, LaneArray.at, index_eq_zero_iff]

theorem keccakF_zero_at_zero : (keccakF .zero).at 0 = 0xF1258F7940E1DDE7 := by decide +kernel

end Sys2Proof.Machine
end

section
/-! PROOFS. The constant tables (R56, R59) and their generators. -/

namespace Sys2Proof.Machine

theorem rhoOffset_eq_rhoGenerated : ∀ x y : Fin 5, rhoOffset x y = rhoGenerated x y := by decide

theorem rhoOffset_rhoOrbit : ∀ t < 24, rhoOffset (rhoOrbit t).1 (rhoOrbit t).2 = rhoStep t := by decide

theorem roundConstant_eq_rcGenerated : ∀ ir : Fin 24, roundConstant ir = rcGenerated ir.val := by decide +kernel

/-- An OR of lanes has a bit that the start or one of the lanes has. -/
theorem getLsbD_foldl_or (f : Nat → Lane) (l : List Nat) (v : Lane) (z : Nat) :
    (l.foldl (fun v j => v ||| f j) v).getLsbD z = (v.getLsbD z || l.any fun j => (f j).getLsbD z) := by
  induction l generalizing v with
  | nil => simp
  | cons j l ih => simp [ih, Bool.or_assoc]

theorem eq_of_getLsbD_ofBool_shiftLeft {b : Bool} {k z : Nat}
    (h : ((BitVec.ofBool b).setWidth 64 <<< k).getLsbD z = true) : z = k := by
  simp only [BitVec.getLsbD_shiftLeft, BitVec.getLsbD_setWidth, BitVec.getLsbD_ofBool, Bool.and_eq_true,
    decide_eq_true_eq, Bool.not_eq_eq_eq_not, Bool.not_true, decide_eq_false_iff_not, not_lt] at h
  omega

/-- The generator of R59 writes bit `2^j - 1` in turn `j`, so only seven bits can be 1. -/
theorem rcGenerated_bits {n z : Nat} (h : (rcGenerated n).getLsbD z = true) : z ∈ [0, 1, 3, 7, 15, 31, 63] := by
  rw [rcGenerated, getLsbD_foldl_or, BitVec.ofNat_eq_ofNat, BitVec.getLsbD_zero, Bool.false_or, List.any_eq_true] at h
  obtain ⟨j, hj, hbit⟩ := h
  rw [eq_of_getLsbD_ofBool_shiftLeft hbit]
  exact List.mem_map_of_mem (f := fun j => 2 ^ j - 1) hj

end Sys2Proof.Machine
end

section
/-! PROOFS. The 24 rounds as a sequence (R53), and the permutation in place (R64). A fold that writes one place at a
time, reading no place that it has written, leaves the pure function's value in each place. -/

namespace Sys2Proof.Machine

/-! ## The rounds in order -/

/-- The lane array after the first `t` rounds. -/
def afterRounds (A : LaneArray) (t : Nat) : LaneArray := (roundIndices.take t).foldl keccakRound A

theorem roundIndices_getElem? : ∀ ir : Fin 24, roundIndices[ir.val]? = some ir := by decide

theorem afterRounds_succ (A : LaneArray) (ir : Fin 24) :
    afterRounds A (ir.val + 1) = keccakRound (afterRounds A ir.val) ir := by
  simp only [afterRounds, List.take_add_one, roundIndices_getElem?, List.foldl_append, Option.toList_some,
    List.foldl_cons, List.foldl_nil]

theorem keccakF_eq_afterRounds (A : LaneArray) : keccakF A = afterRounds A 24 := by
  rw [keccakF, afterRounds, List.take_of_length_le (by decide)]

/-! ## THETA and CHI in place -/

/-- If step `i` of a fold rewrites the place `key i` alone, from what stands there, then the fold rewrites each of its
places once, and no other. -/
theorem foldl_rewrites {σ ι κ β : Type} [DecidableEq κ] {step : σ → ι → σ} (read : σ → κ → β) (key : ι → κ)
    (f : κ → β → β) (hstep : ∀ s i k, read (step s i) k = if k = key i then f k (read s k) else read s k)
    {l : List ι} (hl : (l.map key).Nodup) (s : σ) (k : κ) :
    read (l.foldl step s) k = if k ∈ l.map key then f k (read s k) else read s k := by
  induction l generalizing s with
  | nil => simp
  | cons i l ih =>
    obtain ⟨hnew, hrest⟩ := List.nodup_cons.1 hl
    rw [List.foldl_cons, ih hrest, hstep, List.map_cons]
    by_cases hk : k = key i
    · subst hk
      simp [hnew]
    · simp [hk]

theorem mem_axis : ∀ x : Fin 5, x ∈ axis := by decide

/-- Writing the five lanes of a row, each from its own old value. -/
theorem foldl_axis_setLane (g : Fin 5 → Lane → Lane) (A : LaneArray) (x y y' : Fin 5) :
    (axis.foldl (fun A x => A.setLane x y (g x (A.lane x y))) A).lane x y' =
      if y' = y then g x (A.lane x y') else A.lane x y' := by
  have hrow := foldl_rewrites (fun A p => A.atPosition p) (fun x => (x, y)) (fun p => g p.1)
    (step := fun A x => A.setLane x y (g x (A.lane x y)))
    (fun A x p => (A.atPosition_setLane x y _ p).trans (by congr! 1 with hp; rw [hp, LaneArray.atPosition]))
    (l := axis) (by revert y; decide) A (x, y')
  simpa [LaneArray.atPosition, mem_axis, eq_comm] using hrow

/-- Rewriting the five rows, each from its own old lanes. -/
theorem foldl_axis_rows {step : LaneArray → Fin 5 → LaneArray} (g : Row → Fin 5 → Lane)
    (hstep : ∀ A x y y', (step A y).lane x y' = if y' = y then g (A.row y') x else A.lane x y')
    (A : LaneArray) (x y : Fin 5) : (axis.foldl step A).lane x y = g (A.row y) x := by
  have hrows := foldl_rewrites LaneArray.row id (fun _ r => .ofX (g r)) (step := step)
    (fun A y y' => Row.ext_get fun x => (hstep A x y y').trans (by split <;> simp [*, LaneArray.lane]))
    (l := axis) (by decide) A y
  rw [LaneArray.lane, hrows]
  simp [mem_axis]

theorem thetaInPlace_eq (A : LaneArray) : thetaInPlace A = theta A := by
  rw [thetaInPlace, theta]
  generalize thetaEffect (columnParity A) = D
  refine LaneArray.ext_lane fun x y => (foldl_axis_rows (fun r x => r.get x ^^^ D.get x) ?_ A x y).trans ?_
  · exact foldl_axis_setLane (fun x v => v ^^^ D.get x)
  · exact (xorColumns_lane A D x y).symm

/-- CHI's lane `x` of a row, from the row's input lanes (R60). -/
def Row.chiLane (r : Row) (x : Fin 5) : Lane := r.get x ^^^ (~~~(r.get (x + 1)) &&& r.get (x + 2))

theorem chiRowInPlace_lane (A : LaneArray) (x y y' : Fin 5) :
    (chiRowInPlace A y).lane x y' = if y' = y then (A.row y').chiLane x else A.lane x y' := by
  refine (foldl_axis_setLane (fun x _ => (A.row y).chiLane x) A x y y').trans ?_
  congr! 1 with hy
  rw [hy]

theorem chiInPlace_eq (A : LaneArray) : chiInPlace A = chi A :=
  LaneArray.ext_lane fun x y =>
    (foldl_axis_rows Row.chiLane (fun A x y y' => chiRowInPlace_lane A x y y') A x y).trans (chi_lane A x y).symm

/-! ## RHO and PI in place -/

/-- R56's orbit follows the lanes as PI moves them. -/
theorem rhoOrbit_succ (t : Nat) : rhoOrbit (t + 1) = piPosition.symm (rhoOrbit t) := rfl

/-- The places that `t` turns have written. -/
def orbitWritten (t : Nat) : List (Fin 5 × Fin 5) := (List.range t).map fun s => rhoOrbit (s + 1)

theorem orbitWritten_succ (t : Nat) : orbitWritten (t + 1) = orbitWritten t ++ [rhoOrbit (t + 1)] := by
  simp [orbitWritten, List.range_succ]

/-- No turn comes to a place already written. -/
theorem rhoOrbit_succ_notMem_orbitWritten : ∀ t < 24, rhoOrbit (t + 1) ∉ orbitWritten t := by decide

/-- The orbit runs through every place but `(0, 0)`. -/
theorem mem_orbitWritten : ∀ p ≠ (0, 0), p ∈ orbitWritten 24 := by decide

/-- What PI moves to the place of turn `t` is the lane of the place before, rotated by the turn's offset. -/
theorem pi_rho_atPosition_rhoOrbit (A : LaneArray) {t : Nat} (ht : t < 24) :
    (pi (rho A)).atPosition (rhoOrbit (t + 1)) = rol64 (A.atPosition (rhoOrbit t)) (rhoStep t) := by
  rw [rhoOrbit_succ, pi_atPosition_symm, LaneArray.atPosition, rho_lane, rhoOffset_rhoOrbit t ht, LaneArray.atPosition]

/-- The lane array after `t` turns, and the lane held aside. -/
def afterTurns (A : LaneArray) (t : Nat) : LaneArray × Lane :=
  (List.range t).foldl (fun p t => rhoPiTurn t p) (A, A.lane 1 0)

theorem afterTurns_succ (A : LaneArray) (t : Nat) : afterTurns A (t + 1) = rhoPiTurn t (afterTurns A t) := by
  simp only [afterTurns, List.range_succ, List.foldl_append, List.foldl_cons, List.foldl_nil]

theorem rhoPiTurn_snd (t : Nat) (p : LaneArray × Lane) : (rhoPiTurn t p).2 = p.1.atPosition (rhoOrbit (t + 1)) := rfl

theorem rhoPiTurn_atPosition (t : Nat) (p : LaneArray × Lane) (q : Fin 5 × Fin 5) :
    (rhoPiTurn t p).1.atPosition q = if q = rhoOrbit (t + 1) then rol64 p.2 (rhoStep t) else p.1.atPosition q :=
  LaneArray.atPosition_setLane ..

/-- After `t` turns the places written hold the result and the others their old lanes, and the lane held aside is the
old lane of the place last written. -/
theorem afterTurns_spec (A : LaneArray) {t : Nat} (ht : t ≤ 24) :
    (afterTurns A t).2 = A.atPosition (rhoOrbit t) ∧
      ∀ q, (afterTurns A t).1.atPosition q =
        if q ∈ orbitWritten t then (pi (rho A)).atPosition q else A.atPosition q := by
  induction t with
  | zero => exact ⟨rfl, fun q => rfl⟩
  | succ t ih =>
    obtain ⟨hheld, hlanes⟩ := ih (Nat.le_of_succ_le ht)
    rw [afterTurns_succ]
    constructor
    · rw [rhoPiTurn_snd, hlanes, if_neg (rhoOrbit_succ_notMem_orbitWritten t ht)]
    · intro q
      rw [rhoPiTurn_atPosition, hheld, hlanes, orbitWritten_succ]
      by_cases hq : q = rhoOrbit (t + 1)
      · simp [hq, pi_rho_atPosition_rhoOrbit A ht]
      · simp [hq]

theorem rhoPiInPlace_eq (A : LaneArray) : rhoPiInPlace A = pi (rho A) :=
  LaneArray.ext_atPosition fun q => by
    refine ((afterTurns_spec A le_rfl).2 q).trans ?_
    by_cases hq : q = (0, 0)
    · have hfixed : (pi (rho A)).atPosition (0, 0) = A.atPosition (0, 0) :=
        (pi_atPosition _ _).trans (rho_lane_zero A)
      rw [hq, hfixed, ite_self]
    · exact if_pos (mem_orbitWritten q hq)

/-! ## The round and the permutation in place -/

theorem roundInPlace_eq (A : LaneArray) (ir : Fin 24) : roundInPlace A ir = keccakRound A ir := by
  rw [roundInPlace, thetaInPlace_eq, rhoPiInPlace_eq, chiInPlace_eq, keccakRound, iota_eq_setLane]

theorem keccakFInPlace_eq (A : LaneArray) : keccakFInPlace A = keccakF A := by
  rw [keccakFInPlace, keccakF, funext fun A => funext (roundInPlace_eq A)]

end Sys2Proof.Machine
end

section
/-! PROOFS. The obligations of 40_permutation.md. -/

namespace Sys2Proof.Machine

/-- Settles O22: the sequence is that of the arrays after each number of rounds. -/
theorem permutationRuns24RoundsInOrder : Obligations.PermutationRuns24RoundsInOrder :=
  ⟨fun A => ⟨afterRounds A, rfl, afterRounds_succ A, keccakF_eq_afterRounds A⟩, keccakF_zero_at_zero⟩

/-- Settles O23: the given parities are those THETA computes. -/
theorem thetaXorsNeighbourParities : Obligations.ThetaXorsNeighbourParities := by
  intro A C hC
  have hparity : C = (columnParity A).get := funext fun x => (hC x).trans (columnParity_get A x).symm
  subst hparity
  exact ⟨fun x y => (theta_lane A x y).trans (by rw [thetaEffect_get]), theta_of_columnParity_eq_zero⟩

/-- Settles O24: the two parity bits of `theta_getLsbD`, interleaved. -/
theorem thetaMixesElevenBits : Obligations.ThetaMixesElevenBits := by
  intro A x y z hz
  rw [theta_getLsbD A x y hz, columnParity_getLsbD, columnParity_getLsbD, ← foldl_xor_xor, Bool.xor_self,
    Bool.xor_false]
  rfl

/-- Settles O25: the table, its entries and its generator are evaluated. -/
theorem rotationOffsetsAreTheGeneratedOnes : Obligations.RotationOffsetsAreTheGeneratedOnes :=
  ⟨by decide, fun x y => ⟨rhoOffset_eq_rhoGenerated x y, rhoOffset_lt x y⟩, rfl, rfl, rfl, rhoOffset_rhoOrbit⟩

/-- Settles O26, from what a rotation does to a bit. -/
theorem rhoRotatesEachLane : Obligations.RhoRotatesEachLane := fun A x y =>
  ⟨rho_lane A x y, rho_lane_zero A, rhoOffset_eq_zero_iff x y, rhoOffset_lt x y, fun z hz => by
    rw [rho_lane, rol64_getLsbD_add_mod _ (rhoOffset_lt x y) hz]⟩

/-- Settles O27: R58's two mappings of positions are inverse to each other. -/
theorem piRelabelsLanesBijectively : Obligations.PiRelabelsLanesBijectively :=
  ⟨fun A x y => ⟨pi_atPosition A (x, y), pi_atPosition_symm A (x, y)⟩, fun A => pi_atPosition A (0, 0), pi_bijective⟩

/-- Settles O28: the table is evaluated, and the generator says which bits can be 1. -/
theorem roundConstantsAreTheGeneratedOnes : Obligations.RoundConstantsAreTheGeneratedOnes := by
  refine ⟨roundConstant_eq_rcGenerated, rfl, rfl, rfl, rfl, rfl, rfl, rfl, rfl, rfl, rfl, rfl, rfl, fun ir z h => ?_⟩
  rw [roundConstant_eq_rcGenerated] at h
  exact rcGenerated_bits h

/-- Settles O29. With only lane `(2, 0)` set, the sequential update reads the lane `(0, 0)` it has just written. -/
theorem chiMixesRowsFromTheirInputs : Obligations.ChiMixesRowsFromTheirInputs :=
  ⟨chi_lane, fun _ _ => chi_lane_of_equal_lanes, fun _ _ => chi_lane_of_equal_lanes,
    LaneArray.zero.setLane 2 0 1, 3, 0, by decide +kernel⟩

/-- Settles O30. -/
theorem iotaChangesLaneZeroOnly : Obligations.IotaChangesLaneZeroOnly := iota_lane

/-- Settles O31: each clause by the formula of its step. -/
theorem stepsActOnSlicesLanesAndRows : Obligations.StepsActOnSlicesLanesAndRows := by
  refine ⟨fun A B z hz hown hbelow x y => ?_, fun A B x y h => ?_,
    ⟨piPosition, piPosition.bijective, fun A x y => pi_atPosition A (x, y)⟩, fun A B y z h x => ?_,
    fun A ir x y hne => ?_⟩
  · simp only [theta_getLsbD _ _ _ hz, columnParity_getLsbD, hown, hbelow]
  · rw [rho_lane, rho_lane, h]
  · simp only [chi_lane, BitVec.getLsbD_xor, BitVec.getLsbD_and, BitVec.getLsbD_not, h]
  · exact (iota_lane A ir x y).trans (if_neg fun h => hne (Prod.ext h.1 h.2))

/-- Settles O32: the steps in place, and from them the round and the fold of the rounds. -/
theorem inPlacePermutationIsKeccakF : Obligations.InPlacePermutationIsKeccakF :=
  ⟨fun A => ⟨thetaInPlace_eq A, rhoPiInPlace_eq A, chiInPlace_eq A⟩, roundInPlace_eq, keccakFInPlace_eq⟩

/-- Settles O33: four steps fix the zero state, and lane 0 of its permutation is known. -/
theorem zeroStateRoundLeavesTheRoundConstant : Obligations.ZeroStateRoundLeavesTheRoundConstant := by
  refine ⟨theta_zero, rho_zero, pi_zero, chi_zero, keccakRound_zero_at, fun h => ?_⟩
  have hlane := keccakF_zero_at_zero
  rw [h, LaneArray.at_zero] at hlane
  exact absurd hlane (by decide)

end Sys2Proof.Machine
end

section
/-! PROOFS. A message as blocks (R69): what one more byte changes in the full blocks and in the tail. -/

namespace Sys2Proof.Machine

@[simp] theorem messageBlock_getElem (M : List Byte) (i k : Nat) (h : k < 136) :
    (messageBlock M i)[k] = M.getD (136 * i + k) 0 := by
  simp [messageBlock]

/-- The tail as a block is the block after the full ones. -/
theorem ofBytes_messageTail (M : List Byte) : Block.ofBytes (messageTail M) = messageBlock M (M.length / 136) := rfl

/-- Past the end of the message there are zeros alone. -/
theorem messageBlock_of_le {M : List Byte} {i : Nat} (h : M.length ≤ 136 * i) : messageBlock M i = .zero :=
  Vector.ext fun k hk => by
    rw [messageBlock_getElem, Block.zero_getElem, List.getD_eq_default _ _ (by omega)]

/-- What follows a full block does not change it. -/
theorem messageBlock_append (M N : List Byte) {i : Nat} (h : i < M.length / 136) :
    messageBlock (M ++ N) i = messageBlock M i :=
  Vector.ext fun k hk => by
    rw [messageBlock_getElem, messageBlock_getElem, List.getD_append _ _ _ _ (by omega)]

/-- One more byte goes into the tail at CURSOR. -/
theorem messageBlock_append_singleton (M : List Byte) (b : Byte) :
    messageBlock (M ++ [b]) (M.length / 136) = (messageBlock M (M.length / 136)).set (tailLength M).val b := by
  refine Vector.ext fun k hk => ?_
  have hend : 136 * (M.length / 136) + (tailLength M).val = M.length := Nat.div_add_mod M.length 136
  have hlen : (M ++ [b]).length = M.length + 1 := List.length_append
  rw [messageBlock_getElem, Vector.getElem_set, messageBlock_getElem]
  obtain hbefore | rfl | hafter := Nat.lt_trichotomy k (tailLength M).val
  · rw [if_neg (Nat.ne_of_gt hbefore), List.getD_append _ _ _ _ (by omega)]
  · simp [hend]
  · rw [if_neg (Nat.ne_of_lt hafter), List.getD_eq_default _ _ (by omega), List.getD_eq_default _ _ (by omega)]

/-- The tail holds nothing from CURSOR on. -/
theorem messageTail_clear (M : List Byte) {k : Fin 136} (h : tailLength M ≤ k) :
    (Block.ofBytes (messageTail M))[k.val] = 0 := by
  have hend : M.length % 136 ≤ k.val := h
  rw [ofBytes_messageTail, messageBlock_getElem, List.getD_eq_default _ _ (by omega)]

/-- The lanes after the first `n` blocks of a message. -/
def absorbBlocks (M : List Byte) (n : Nat) : LaneArray :=
  (List.range n).foldl (fun A i => absorbBlock A (messageBlock M i)) .zero

theorem absorbFull_eq_absorbBlocks (M : List Byte) : absorbFull M = absorbBlocks M (M.length / 136) := rfl

theorem absorbBlocks_zero (M : List Byte) : absorbBlocks M 0 = .zero := rfl

theorem absorbBlocks_succ (M : List Byte) (n : Nat) :
    absorbBlocks M (n + 1) = absorbBlock (absorbBlocks M n) (messageBlock M n) := by
  rw [absorbBlocks, List.range_succ, List.foldl_concat, absorbBlocks]

theorem absorbBlocks_append (M N : List Byte) {n : Nat} (h : n ≤ M.length / 136) :
    absorbBlocks (M ++ N) n = absorbBlocks M n := by
  induction n with
  | zero => rw [absorbBlocks_zero, absorbBlocks_zero]
  | succ n ih => rw [absorbBlocks_succ, absorbBlocks_succ, ih (Nat.le_of_lt h), messageBlock_append M N h]

/-- A byte below the last of a block completes none. -/
theorem absorbFull_append_of_ne {M : List Byte} (h : tailLength M ≠ 135) (b : Byte) :
    absorbFull (M ++ [b]) = absorbFull M := by
  have hne : M.length % 136 ≠ 135 := fun hv => h (Fin.ext hv)
  have hdiv : (M ++ [b]).length / 136 = M.length / 136 := by simp; omega
  rw [absorbFull_eq_absorbBlocks, hdiv, absorbBlocks_append M [b] le_rfl, absorbFull_eq_absorbBlocks]

/-- The 136th byte of a block completes it. -/
theorem absorbFull_append_of_eq {M : List Byte} (h : tailLength M = 135) (b : Byte) :
    absorbFull (M ++ [b]) = absorbBlock (absorbFull M) (messageBlock (M ++ [b]) (M.length / 136)) := by
  have heq : M.length % 136 = 135 := congrArg Fin.val h
  have hdiv : (M ++ [b]).length / 136 = M.length / 136 + 1 := by simp; omega
  rw [absorbFull_eq_absorbBlocks, hdiv, absorbBlocks_succ, absorbBlocks_append M [b] le_rfl,
    absorbFull_eq_absorbBlocks]

/-- The blocks that KECCAK256 absorbs: the full ones and the padded tail (R69). -/
def paddedBlocks (M : List Byte) : List Block :=
  (List.range (M.length / 136)).map (messageBlock M) ++ [pad (Block.ofBytes (messageTail M)) (tailLength M)]

theorem foldl_paddedBlocks (M : List Byte) : (paddedBlocks M).foldl absorbBlock .zero = absorbMessage M := by
  rw [paddedBlocks, List.foldl_concat, List.foldl_map, absorbMessage, absorbFull]

theorem paddedBlocks_length (M : List Byte) : (paddedBlocks M).length = M.length / 136 + 1 := by
  simp [paddedBlocks]

theorem paddedBlocks_getElem (M : List Byte) {i : Nat} (h : i < (paddedBlocks M).length) (hi : i < M.length / 136) :
    (paddedBlocks M)[i] = messageBlock M i := by
  simp [paddedBlocks, hi]

end Sys2Proof.Machine
end

section
/-! PROOFS. The padded block byte by byte (R66) and at a block boundary (R71). -/

namespace Sys2Proof.Machine

/-- PAD of a buffer that is clear from CURSOR on (R66). -/
theorem pad_getElem_of_clear {buf : Block} {cursor : Fin 136} (hclear : ∀ m : Fin 136, cursor ≤ m → buf[m.val] = 0)
    (k : Fin 136) :
    (pad buf cursor)[k.val] =
      if k < cursor then buf[k.val]
      else if k = cursor then (if k = 135 then 0x81 else 0x01)
      else if k = 135 then 0x80 else 0x00 := by
  have hlast : 135 = k.val ↔ k = 135 := by rw [Fin.ext_iff, eq_comm]; rfl
  rw [pad_getElem]
  simp only [hlast]
  obtain hbelow | rfl | habove := lt_trichotomy k cursor
  · have hne : k ≠ 135 := Fin.ne_of_val_ne (by have := cursor.isLt; omega)
    simp [hbelow, hne, Nat.ne_of_gt hbelow]
  · rw [hclear k le_rfl]
    by_cases hk : k = 135 <;> simp [hk]
  · rw [hclear k habove.le, if_neg (Nat.ne_of_lt habove), if_neg habove.not_gt, if_neg habove.ne']
    by_cases hk : k = 135 <;> simp [hk]

/-- PAD of an empty buffer is padding alone (R71). -/
theorem pad_zero : pad .zero 0 = (Block.zero.set 0 0x01).set 135 0x80 := by
  simp [pad, Config.padFirst, Config.padLast]

/-- With 135 bytes buffered both padding bytes are XORed into the last one (R66). -/
theorem pad_getElem_last {buf : Block} (h : buf[135] = 0) : (pad buf 135)[135] = 0x81 := by
  rw [pad_getElem, h]
  rfl

/-- The bytes of a padded tail below CURSOR are the message's. -/
theorem pad_messageTail_getElem_of_lt (M : List Byte) {k : Fin 136} (h : k < tailLength M) :
    (pad (Block.ofBytes (messageTail M)) (tailLength M))[k.val] = M.getD (136 * (M.length / 136) + k.val) 0 := by
  rw [pad_getElem_of_clear fun _ => messageTail_clear M, if_pos h, ofBytes_messageTail, messageBlock_getElem]

end Sys2Proof.Machine
end

section
/-! PROOFS. SQUEEZE as READ_DIGEST returns it (R68, R77, R83): the 32 answers are its bytes in order. -/

namespace Sys2Proof.Machine

theorem Context.answerWord_of_decode (c : Context) {w : CommandWord} {i : Instr} (h : decode w = .command i) :
    c.answerWord w = c.answer i := by
  rw [answerWord, h]

/-- The word of a well-formed command runs that command. -/
theorem Context.answerWord_encode (c : Context) {i : Instr} (h : i.wellFormed) : c.answerWord (encode i) = c.answer i :=
  c.answerWord_of_decode (decode_encode h)

theorem digestByte_eq_squeeze (A : LaneArray) (j : Fin 32) : digestByte A j = (squeeze A).toList.getD j.val 0 := by
  rw [List.getD_eq_getElem _ _ (by simp), Vector.getElem_toList, squeeze_getElem]
  rfl

/-- READ_DIGEST of a legal index in FINALIZED (R77). -/
theorem Context.answer_readDigest {c : Context} (hf : c.fsm = .finalized) {j : Byte} (hj : j < 32) :
    c.answer (.readDigest j) = (c, ⟨.ok, (squeeze c.lanes).toList.getD j.toNat 0⟩) := by
  have hlt : j.toNat < 32 := hj
  simp only [answer, digestIndex, dif_pos hlt, if_pos hf, digestByte_eq_squeeze]

/-- Out of FINALIZED, READ_DIGEST of a legal index is a StateError (R90). -/
theorem Context.answer_readDigest_of_ne {c : Context} (hf : c.fsm ≠ .finalized) {j : Byte} (hj : j < 32) :
    c.answer (.readDigest j) = (c, ⟨.errState, 0⟩) := by
  have hlt : j.toNat < 32 := hj
  simp only [answer, digestIndex, dif_pos hlt, if_neg hf]

theorem Context.answerWord_readDigest {c : Context} (hf : c.fsm = .finalized) {j : Byte} (hj : j < 32) :
    c.answerWord (encode (.readDigest j)) = (c, ⟨.ok, (squeeze c.lanes).toList.getD j.toNat 0⟩) := by
  have hwf : (Instr.readDigest j).wellFormed := decide_eq_true hj
  rw [answerWord_encode c hwf, answer_readDigest hf hj]

theorem lt_of_mem_digestIndices {j : Byte} (h : j ∈ digestIndices) : j < 32 := by
  revert j
  decide

/-- The digest indices read all of the digest, in order. -/
theorem digestIndices_map_squeeze (A : LaneArray) :
    (digestIndices.map fun j => (squeeze A).toList.getD j.toNat 0) = (squeeze A).toList := by
  refine List.ext_getElem (by simp [digestIndices]) fun k hk hk' => ?_
  have hlen : (squeeze A).toList.length = 32 := Vector.length_toList
  have hlt : k < 2 ^ 8 := by omega
  simp only [digestIndices, List.getElem_map, List.getElem_range, BitVec.toNat_ofNat, Nat.mod_eq_of_lt hlt]
  exact List.getD_eq_getElem _ _ hk'

/-- The responses to READ_DIGESTs of legal indices in FINALIZED. -/
theorem Context.responses_readDigests {c : Context} (hf : c.fsm = .finalized) {js : List Byte}
    (hjs : ∀ j ∈ js, j < 32) :
    c.responses (js.map fun j => encode (.readDigest j)) =
      js.map fun j => ⟨.ok, (squeeze c.lanes).toList.getD j.toNat 0⟩ := by
  induction js with
  | nil => rfl
  | cons j js ih =>
    obtain ⟨hj, hjs⟩ := List.forall_mem_cons.1 hjs
    simp only [List.map_cons, responses, answerWord_readDigest hf hj, ih hjs]

/-- The responses to the READ_DIGESTs of DIGEST are the digest. -/
theorem Context.responses_digestIndices {c : Context} (hf : c.fsm = .finalized) :
    c.responses (digestIndices.map fun j => encode (.readDigest j)) =
      (squeeze c.lanes).toList.map fun d => ⟨.ok, d⟩ := by
  rw [responses_readDigests hf fun _ => lt_of_mem_digestIndices]
  conv => rhs; rw [← digestIndices_map_squeeze, List.map_map]
  rfl

/-- The loop of DIGEST in FINALIZED (R83). -/
theorem readDigestBytes_finalized (js : List Byte) (h : Session) (hf : h.engine.ctx.fsm = .finalized)
    (hjs : ∀ j ∈ js, j < 32) :
    readDigestBytes js h = .next (⟨h.engine.afterWords (js.map fun j => encode (.readDigest j)),
      h.issued ++ js.map (fun j => encode (.readDigest j)), h.inputRead⟩,
      .done (js.map fun j => (squeeze h.engine.ctx.lanes).toList.getD j.toNat 0)) := by
  induction js generalizing h with
  | nil => simp [readDigestBytes]
  | cons j js ih =>
    obtain ⟨hj, hjs⟩ := List.forall_mem_cons.1 hjs
    have hans := Context.answerWord_readDigest hf hj
    simp only [readDigestBytes, issue_eq, bindOutcome, hans, if_true]
    rw [ih _ (by simp [hans, hf]) hjs]
    simp [hans]

/-- DIGEST in FINALIZED returns SQUEEZE (R83). -/
theorem hostDigest_finalized (h : Session) (hf : h.engine.ctx.fsm = .finalized) :
    hostDigest h = .next (⟨h.engine.afterWords (digestIndices.map fun j => encode (.readDigest j)),
      h.issued ++ digestIndices.map (fun j => encode (.readDigest j)), h.inputRead⟩,
      .done (squeeze h.engine.ctx.lanes).toList) := by
  rw [hostDigest, readDigestBytes_finalized _ h hf fun _ => lt_of_mem_digestIndices, digestIndices_map_squeeze]

end Sys2Proof.Machine
end

section
/-! PROOFS. The refinement of the message-level context (R69 to R71, R81), command by command. -/

namespace Sys2Proof.Machine

/-- INIT starts the empty message (R74). -/
theorem Ideal.context_absorbing_nil : (Ideal.absorbing []).context = .fresh := by
  have hbuf : Block.ofBytes (messageTail []) = .zero := messageBlock_of_le (Nat.zero_le _)
  rw [context, hbuf]
  rfl

/-- UPDATE_BYTE appends to the message (R75). -/
theorem Ideal.update_context_absorbing (M : List Byte) (b : Byte) :
    (Ideal.absorbing M).context.update b = (Ideal.absorbing (M ++ [b])).context := by
  have hval : ∀ N : List Byte, (tailLength N).val = N.length % 136 := fun _ => rfl
  have hlen : (M ++ [b]).length = M.length + 1 := List.length_append
  simp only [context, ofBytes_messageTail]
  by_cases hlast : tailLength M = 135
  · have hmod : M.length % 136 = 135 := congrArg Fin.val hlast
    have hcursor : tailLength (M ++ [b]) = 0 := Fin.ext (by rw [hval, hlen]; omega)
    have htail : messageBlock (M ++ [b]) ((M ++ [b]).length / 136) = .zero := messageBlock_of_le (by omega)
    rw [Context.update_of_eq hlast, Context.appended, ← messageBlock_append_singleton,
      ← absorbFull_append_of_eq hlast, hcursor, htail]
  · have hne : M.length % 136 ≠ 135 := fun hv => hlast (Fin.ext hv)
    have hdiv : (M ++ [b]).length / 136 = M.length / 136 := by omega
    have hup : (tailLength M + 1).val = (tailLength M).val + 1 :=
      Context.cursor_add_one_val (c := (Ideal.absorbing M).context) hlast
    have hcursor : tailLength M + 1 = tailLength (M ++ [b]) := Fin.ext (by rw [hup, hval, hval, hlen]; omega)
    rw [Context.update_of_ne hlast, ← messageBlock_append_singleton, absorbFull_append_of_ne hlast, hdiv, hcursor]

/-- UPDATE_BYTEs append their bytes in order (R70). -/
theorem Ideal.foldl_update_context_absorbing (M N : List Byte) :
    N.foldl Context.update (Ideal.absorbing M).context = (Ideal.absorbing (M ++ N)).context := by
  induction N generalizing M with
  | nil => rw [List.append_nil]; rfl
  | cons b N ih => rw [List.foldl_cons, update_context_absorbing, ih, List.append_assoc]; rfl

/-- FINALIZE absorbs the padded tail (R76). -/
theorem Ideal.finalize_context_absorbing (M : List Byte) :
    (Ideal.absorbing M).context.finalize = (Ideal.finalized M).context := rfl

/-- READ_STATUS of a legal selector: FSM for 0, CURSOR for 1 (R78). -/
theorem Context.answer_readStatus (c : Context) {sel : Byte} (h : sel < 2) :
    c.answer (.readStatus sel) = (c, ⟨.ok, if sel = 0 then c.fsmByte else c.cursorByte⟩) := by
  obtain rfl | rfl : sel = 0 ∨ sel = 1 := by bv_omega
  · rfl
  · rfl

/-- Every well-formed command does to the context what it does to the message (R81). -/
theorem Ideal.answer_context (a : Ideal) {i : Instr} (h : i.wellFormed) :
    a.context.answer i = ((a.exec i).1.context, (a.exec i).2) := by
  cases i with
  | init => cases a <;> exact congrArg (·, _) context_absorbing_nil.symm
  | updateByte b =>
    cases a with
    | created => rfl
    | absorbing M => exact (Context.answer_updateByte rfl b).trans (congrArg (·, _) (update_context_absorbing M b))
    | finalized M => rfl
  | finalize =>
    cases a with
    | created => rfl
    | absorbing M => exact Context.answer_finalize rfl
    | finalized M => rfl
  | readDigest j =>
    have hj : j < 32 := of_decide_eq_true h
    cases a with
    | created => exact Context.answer_readDigest_of_ne (show Fsm.created ≠ .finalized by decide) hj
    | absorbing M => exact Context.answer_readDigest_of_ne (show Fsm.absorbing ≠ .finalized by decide) hj
    | finalized M => exact Context.answer_readDigest rfl hj
  | readStatus sel =>
    have hsel : sel < 2 := of_decide_eq_true h
    rw [Context.answer_readStatus _ hsel]
    cases a with
    | created => exact congrArg (fun d => (Context.reset, Response.mk .ok d)) (ite_self 0)
    | absorbing M => rfl
    | finalized M => rfl

/-- Every command word does to the context what it does to the message. -/
theorem Ideal.answerWord_context (a : Ideal) (w : CommandWord) :
    a.context.answerWord w = ((a.step w).1.context, (a.step w).2) := by
  cases hd : decode w with
  | illegal why => simp only [Context.answerWord, step, hd]
  | command i => simpa only [Context.answerWord, step, hd] using a.answer_context (wellFormed_of_decode hd)

/-- Every step leaves a context that stands for a message. -/
theorem exists_ideal_of_step {s t : State} (hs : ∃ a : Ideal, s.ctx = a.context) (h : step s = .next t) :
    ∃ b : Ideal, t.ctx = b.context := by
  obtain ⟨a, ha⟩ := hs
  obtain ⟨-, rfl⟩ | ⟨rest, -, rfl⟩ | ⟨w, rest, -, rfl⟩ := step_cases h
  · exact ⟨a, ha⟩
  · exact ⟨.created, rfl⟩
  · exact ⟨(a.step w).1, by rw [ha, a.answerWord_context w]⟩

end Sys2Proof.Machine
end

section
/-! PROOFS. Whole messages: the command sequence of R69, and UPDATE in chunks (R70). -/

namespace Sys2Proof.Machine

theorem Context.foldl_update_fsm (data : List Byte) (c : Context) : (data.foldl Context.update c).fsm = c.fsm := by
  induction data generalizing c with
  | nil => rfl
  | cons b data ih => rw [List.foldl_cons, ih, update_fsm]

theorem Context.answerWord_init (c : Context) : c.answerWord (encode .init) = (.fresh, ⟨.ok, 0⟩) := rfl

theorem Context.answerWord_finalize {c : Context} (hf : c.fsm = .absorbing) :
    c.answerWord (encode .finalize) = (c.finalize, ⟨.ok, 0⟩) := by
  rw [answerWord_encode c rfl, answer_finalize hf]

/-- In ABSORBING every UPDATE_BYTE is answered OK. -/
theorem Context.responses_updates (data : List Byte) {c : Context} (hf : c.fsm = .absorbing) :
    c.responses (data.map fun b => encode (.updateByte b)) = List.replicate data.length ⟨.ok, 0⟩ := by
  induction data generalizing c with
  | nil => rfl
  | cons b data ih =>
    simp only [List.map_cons, responses, answerWord_updateByte hf, List.length_cons, List.replicate_succ]
    rw [ih (by rw [update_fsm, hf])]

/-- After INIT, the UPDATE_BYTEs of `M` and FINALIZE, the context is the one of the frozen message, whatever it was. -/
theorem State.afterWords_message (s : State) (M : List Byte) :
    (s.afterWords (encode .init :: M.map fun b => encode (.updateByte b))).ctx = (Ideal.absorbing M).context := by
  have hinit : (s.afterWord (encode .init)).ctx = (Ideal.absorbing []).context := Ideal.context_absorbing_nil.symm
  rw [afterWords_cons, afterWords_updates M _ (by rw [hinit]; rfl), hinit, Ideal.foldl_update_context_absorbing]
  rfl

/-- A complete hash is answered OK throughout, and the digest reads are answered with the digest (R69). -/
theorem Context.responses_hashProgram (s : State) (M : List Byte) :
    s.ctx.responses (hashProgram M) =
      List.replicate (M.length + 2) ⟨.ok, 0⟩ ++ (keccak256 M).toList.map fun d => ⟨.ok, d⟩ := by
  have hupdates := Context.responses_updates M (c := .fresh) rfl
  have hreads := Context.responses_digestIndices (c := (Ideal.finalized M).context) rfl
  rw [hashProgram, responses_append, State.afterWords_message, responses, answerWord_init, hupdates, responses,
    answerWord_finalize rfl, Ideal.finalize_context_absorbing, hreads, List.replicate_succ, List.replicate_succ',
    List.cons_append, List.cons_append, List.append_assoc]
  rfl

/-- UPDATE in ABSORBING appends its bytes; without any it leaves the context (R82). -/
theorem hostUpdate_absorbing (data : List Byte) {h : Session} (hf : h.engine.ctx.fsm = .absorbing) :
    ∃ h' : Session, hostUpdate data h = .next (h', .done ()) ∧
      h'.engine.ctx = data.foldl Context.update h.engine.ctx := by
  cases data with
  | nil =>
    have hans := h.engine.ctx.answerWord_readStatus (sel := 0) (field := .fsm) rfl
    have hdata : h.engine.ctx.fsmByte = 1 := by rw [Context.fsmByte, hf]; rfl
    refine ⟨⟨h.engine.afterWord (encode (.readStatus 0)), h.issued ++ [encode (.readStatus 0)], h.inputRead⟩, ?_,
      congrArg Prod.fst hans⟩
    simp only [hostUpdate, issue_eq, bindOutcome, hans, Context.statusByte, hdata, if_true]
  | cons b data => exact ⟨_, feedBytes_absorbing (b :: data) h hf, State.afterWords_updates (b :: data) _ hf⟩

/-- UPDATE with chunks in ABSORBING appends their bytes, chunk after chunk. -/
theorem hostUpdateChunks_absorbing (chunks : List (List Byte)) {h : Session} (hf : h.engine.ctx.fsm = .absorbing) :
    ∃ h' : Session, hostUpdateChunks chunks h = .next (h', .done ()) ∧
      h'.engine.ctx = chunks.flatten.foldl Context.update h.engine.ctx := by
  induction chunks generalizing h with
  | nil => exact ⟨h, rfl, rfl⟩
  | cons chunk chunks ih =>
    obtain ⟨h₁, hfirst, hctx⟩ := hostUpdate_absorbing chunk hf
    obtain ⟨h₂, hrest, hctx'⟩ := ih (h := h₁) (by rw [hctx, Context.foldl_update_fsm, hf])
    refine ⟨h₂, ?_, by rw [hctx', hctx, List.flatten_cons, List.foldl_append]⟩
    simp only [hostUpdateChunks, hfirst, bindOutcome, hrest]

/-- A command of the KECCAK256 expansion that is answered OK. -/
theorem issueOk_eq {w : CommandWord} {h : Session} (hok : (h.engine.ctx.answerWord w).2.code = .ok) :
    issueOk w h = .next ⟨h.engine.afterWord w, h.issued ++ [w], h.inputRead⟩ := by
  simp only [issueOk, issue_eq, bindOutcome, hok, if_true]

/-- FINALIZE and DIGEST in ABSORBING return a function of the context. -/
theorem finalize_then_digest {h : Session} (hf : h.engine.ctx.fsm = .absorbing) :
    ∃ g : Session, bindOutcome (issueOk (encode .finalize) h) hostDigest =
      .next (g, .done (squeeze h.engine.ctx.finalize.lanes).toList) := by
  have hans := Context.answerWord_finalize hf
  have hctx : (h.engine.afterWord (encode .finalize)).ctx = h.engine.ctx.finalize := congrArg Prod.fst hans
  rw [issueOk_eq (by rw [hans]), bindOutcome, hostDigest_finalized _ (by rw [hctx]; rfl), hctx]
  exact ⟨_, rfl⟩

end Sys2Proof.Machine
end

section
/-! PROOFS. Where the permutation runs in an UPDATE_BYTE (R72). -/

namespace Sys2Proof.Machine

theorem Context.appended_of_eq {c : Context} (h : c.cursor = 135) (b : Byte) : c.appended b = c.buf.set 135 b := by
  simp [appended, h]

/-- Out of ABSORBING, UPDATE_BYTE is a StateError (R90). -/
theorem Context.answer_updateByte_of_ne {c : Context} (h : c.fsm ≠ .absorbing) (b : Byte) :
    c.answer (.updateByte b) = (c, ⟨.errState, 0⟩) := if_neg h

/-- An UPDATE_BYTE that is rejected or fills no block leaves the lanes. -/
theorem Context.answer_updateByte_lanes {c : Context} (h : c.fsm ≠ .absorbing ∨ c.cursor ≠ 135) {b : Byte} :
    (c.answer (.updateByte b)).1.lanes = c.lanes := by
  by_cases hf : c.fsm = .absorbing
  · have hne : c.cursor ≠ 135 := h.resolve_left (not_not_intro hf)
    rw [answer_updateByte hf, update_of_ne hne]
  · rw [answer_updateByte_of_ne hf]

end Sys2Proof.Machine
end

section
/-! PROOFS. The obligations of 41_sponge.md. -/

namespace Sys2Proof.Machine

/-- Settles O37: a presented word is answered as on the message. -/
theorem engineRefinesTheMessageLevelContext : Obligations.EngineRefinesTheMessageLevelContext := by
  intro a s w hctx
  rw [step_present, hctx, a.answerWord_context w]

/-- Settles O38: by the refinement for the one step, and by induction on how a state is reached. -/
theorem reachableContextsStandForMessages : Obligations.ReachableContextsStandForMessages := by
  refine ⟨rfl, fun _ _ => exists_ideal_of_step, fun s hs => ?_⟩
  induction hs with
  | reset => exact ⟨.created, rfl⟩
  | issue events _ ih => exact ih
  | step _ h ih => exact exists_ideal_of_step ih h

/-- Settles O34: a byte of the padded block stands below, at or above CURSOR. -/
theorem paddingFramesTheBufferedBytes : Obligations.PaddingFramesTheBufferedBytes :=
  fun _ _ k hclear => pad_getElem_of_clear hclear k

/-- Settles O35: the hypotheses name every lane of the XORed array. -/
theorem absorbBlockPermutesTheXoredLanes : Obligations.AbsorbBlockPermutesTheXoredLanes := by
  intro A B blk hrate hcapacity
  have hB : xorBlock A blk = B := LaneArray.ext_at fun i => by
    by_cases hi : i.val < 17
    · rw [xorBlock_at_of_lt A blk hi, ← hrate ⟨i.val, hi⟩]
    · rw [xorBlock_at_of_ge A blk (Nat.le_of_not_lt hi), hcapacity i (Nat.le_of_not_lt hi)]
  rw [absorbBlock, hB]

/-- Settles O36: the blocks absorbed, and the responses to the command sequence. -/
theorem commandSequenceComputesKeccak256 : Obligations.CommandSequenceComputesKeccak256 := by
  refine fun M => ⟨⟨paddedBlocks M, paddedBlocks_length M, by rw [foldl_paddedBlocks, keccak256], fun i h hi k => ?_,
    Block.ofBytes (messageTail M), List.getLast?_concat, fun k => ?_⟩, fun s => ?_⟩
  · rw [paddedBlocks_getElem M h hi, messageBlock_getElem]
  · rw [ofBytes_messageTail, messageBlock_getElem]
  · have hrun := runWords_eq (hashProgram M) (.start s)
    simp only [Session.start, Context.responses_hashProgram] at hrun
    exact ⟨_, hrun, State.afterWords_inbox s _⟩

/-- Settles O39: both ways the same bytes are appended in order, and the digest depends on the context alone. -/
theorem chunkingDoesNotChangeTheDigest : Obligations.ChunkingDoesNotChangeTheDigest := by
  intro chunks h hf
  obtain ⟨h₁, hchunks, hctx₁⟩ := hostUpdateChunks_absorbing chunks hf
  obtain ⟨h₂, hwhole, hctx₂⟩ := hostUpdate_absorbing chunks.flatten hf
  have hsame : h₁.engine.ctx = h₂.engine.ctx := hctx₁.trans hctx₂.symm
  have hf₂ : h₂.engine.ctx.fsm = .absorbing := by rw [hctx₂, Context.foldl_update_fsm, hf]
  obtain ⟨g₁, hdigest₁⟩ := finalize_then_digest (hsame ▸ hf₂)
  obtain ⟨g₂, hdigest₂⟩ := finalize_then_digest hf₂
  exact ⟨h₁, h₂, g₁, g₂, _, hchunks, hwhole, hsame, hsame ▸ hdigest₁, hdigest₂⟩

/-- Settles O40: with an empty tail the padded block is padding alone; at CURSOR = 135 both padding bytes meet. -/
theorem blockBoundaryPadding : Obligations.BlockBoundaryPadding := by
  refine ⟨fun M hmod => ?_, fun M hmod => ?_⟩
  · have hcursor : tailLength M = 0 := Fin.ext hmod
    have htail : Block.ofBytes (messageTail M) = .zero := messageBlock_of_le (by omega)
    refine ⟨hcursor, ?_⟩
    rw [Context.finalize_lanes, Ideal.context, hcursor, htail, pad_zero]
  · have hcursor : tailLength M = 135 := Fin.ext hmod
    refine ⟨pad (Block.ofBytes (messageTail M)) (tailLength M), ?_, fun k hk => ?_, rfl⟩
    · rw [hcursor]
      exact pad_getElem_last (messageTail_clear M hcursor.le)
    · exact pad_messageTail_getElem_of_lt M (hcursor ▸ hk)

/-- Settles O41, from the answer to the decoded command; any other word leaves the whole context. -/
theorem permutationRunsOncePerFullBlock : Obligations.PermutationRunsOncePerFullBlock := by
  intro s t w hstep
  rw [step_present] at hstep
  cases hstep
  refine ⟨fun b hd hf hlast => ?_, fun b hd hor => ?_, fun hd hf => ?_, fun hd hf => ?_, fun hd => ?_,
    fun hupdate hfinalize hinit => ?_⟩
  · rw [s.ctx.answerWord_of_decode hd, Context.answer_updateByte hf, Context.update_of_eq hlast,
      Context.appended_of_eq hlast, absorbBlock]
  · rw [s.ctx.answerWord_of_decode hd, Context.answer_updateByte_lanes hor]
  · rw [s.ctx.answerWord_of_decode hd, Context.answer_finalize hf, Context.finalize_lanes, absorbBlock]
  · rw [s.ctx.answerWord_of_decode hd, Context.answer_finalize_of_ne hf]
  · rw [s.ctx.answerWord_of_decode hd]
    rfl
  · obtain hc | ⟨rfl, -⟩ | ⟨-, b, rfl, -⟩ | ⟨-, rfl, -⟩ := s.ctx.answerWord_context_cases w
    · exact congrArg Context.lanes hc
    · exact absurd (decode_encode rfl) hinit
    · exact absurd (decode_encode rfl) (hupdate b)
    · exact absurd (decode_encode rfl) hfinalize

end Sys2Proof.Machine
end

section
/-! PROOFS. From the answer that a context gives to a command to the whole next state: `exec` of the command, and the
step that runs its word. Each command's answer is the model's rule for it (R74 to R79). -/

namespace Sys2Proof.Machine

/-! ## Commands and steps from answers -/

/-- A command leaves the context and the response of its answer, and nothing else changes. -/
theorem exec_of_answer {i : Instr} {s : State} {c : Context} {r : Response} (h : s.ctx.answer i = (c, r)) :
    exec i s = .next { s with ctx := c, response := some r } := by
  rw [exec_eq_answer, h]

/-- The step that takes a command's word is that command, on the state with the word taken (R73). -/
theorem step_eq_exec {s : State} {w : CommandWord} {rest : List HostEvent} {i : Instr}
    (hin : s.inbox = .command w :: rest) (hd : decode w = .command i) : step s = exec i { s with inbox := rest } := by
  rw [step_of_command hin, exec_eq_answer, State.afterWord, Context.answerWord_of_decode _ hd]
  rfl

theorem step_present_eq_exec (s : State) {w : CommandWord} {i : Instr} (hd : decode w = .command i) :
    step (s.present w) = exec i s := step_eq_exec rfl hd

/-- An illegal word changes the response port alone (R79). -/
theorem step_present_of_illegal (s : State) {w : CommandWord} {why : IllegalReason} (hd : decode w = .illegal why) :
    step (s.present w) = .next { s with response := some ⟨.errIllegal, 0⟩ } := by
  rw [step_present, Context.answerWord_of_illegal hd]

theorem step_of_inbox_nil {s : State} (h : s.inbox = []) : step s = .next s := by
  rw [step, acceptEvent, h]

/-- The 16-bit word presented as a number is presented as itself. -/
theorem withFetchWord_toNat (s : State) (w : CommandWord) : s.withFetchWord 16 w.toNat = s.present w := by
  rw [State.withFetchWord, Nat.mod_eq_of_lt w.isLt, BitVec.ofNat_toNat, BitVec.setWidth_eq]

/-! ## Words -/

/-- The operand stands in the low byte of the word, beside the opcode (R41). -/
theorem commandWord_eq_or (op imm : Byte) : commandWord op imm = commandWord op 0 ||| imm.setWidth 16 := by
  have himm : imm.setWidth 16 = commandWord 0 imm := BitVec.setWidth_eq_append (by decide)
  have hor : commandWord op 0 ||| commandWord 0 imm = commandWord (op ||| 0) (0 ||| imm) := BitVec.or_append
  rw [himm, hor]
  simp

/-- INIT and FINALIZE take no operand (R46). -/
theorem decode_of_operand_ne_zero {w : CommandWord} (hop : opOf w = 0x01 ∨ opOf w = 0x03) (himm : imm8Of w ≠ 0x00) :
    decode w = .illegal .operandNotZero := by
  obtain hop | hop := hop <;> rw [decode, hop] <;> exact if_neg himm

/-! ## The reads -/

/-- READ_DIGEST of a legal index in FINALIZED returns a state byte (R32, R77). -/
theorem Context.answer_readDigest_stateByte {c : Context} (hf : c.fsm = .finalized) {j : Byte} (hj : j.toNat < 32) :
    c.answer (.readDigest j) = (c, ⟨.ok, c.lanes.stateByte ⟨j.toNat, by omega⟩⟩) := by
  rw [answer_readDigest hf hj, ← digestByte_eq_squeeze c.lanes ⟨j.toNat, hj⟩]
  rfl

end Sys2Proof.Machine
end

section
/-! PROOFS. The obligations of 42_commands.md about the engine's commands. -/

namespace Sys2Proof.Machine

/-- Settles O42: the port's first event is what a step runs, and issuing to an idle engine puts the word first. -/
theorem stepRunsTheDecodedCommand : Obligations.StepRunsTheDecodedCommand := by
  refine ⟨fun s w rest i => step_eq_exec, fun s => step_of_inbox_nil, fun n p k w i hin hd => ?_, fun s i hwf => ?_⟩
  · have hissued : (p.issueTo k (.command w)).engines[k.val] = p.engines[k.val].present w := by
      refine Platform.setEngine_self.trans ?_
      rw [hin, State.present, hin]
      rfl
    rw [hissued, step_present_eq_exec _ hd]
  · rw [withFetchWord_toNat, step_present_eq_exec s (decode_encode hwf)]

/-- Settles O43: INIT's answer does not depend on the context. -/
theorem initCreatesAFreshContext : Obligations.InitCreatesAFreshContext :=
  ⟨fun _ => exec_of_answer rfl, rfl, fun _ hop => decode_of_operand_ne_zero (.inl hop)⟩

/-- Settles O44: below CURSOR 135 the byte is appended, at 135 it fills the block. -/
theorem updateByteAppendsAndAbsorbs : Obligations.UpdateByteAppendsAndAbsorbs := by
  refine fun s b => ⟨commandWord_eq_or 0x02 b, fun hf hbelow => ?_, fun hf hlast => ?_, fun hf => ?_⟩
  · rw [exec_of_answer (Context.answer_updateByte hf b), Context.update_of_ne hbelow]
  · rw [exec_of_answer (Context.answer_updateByte hf b), Context.update_of_eq hlast, Context.appended_of_eq hlast, hf]
  · exact exec_of_answer (Context.answer_updateByte_of_ne hf b)

/-- Settles O45, from FINALIZE's answer in and out of ABSORBING. -/
theorem finalizeAbsorbsThePaddedBlock : Obligations.FinalizeAbsorbsThePaddedBlock := by
  refine ⟨rfl, fun _ hop => decode_of_operand_ne_zero (.inr hop), fun s => ⟨fun hf => ?_, fun hf => ?_⟩⟩
  · exact exec_of_answer (Context.answer_finalize hf)
  · exact exec_of_answer (Context.answer_finalize_of_ne hf)

/-- Settles O46: of the contexts a step can leave, only INIT's and the reset one come from FINALIZED. -/
theorem readDigestReturnsTheDigestByte : Obligations.ReadDigestReturnsTheDigestByte := by
  refine ⟨fun s t hf h => ?_, fun s j => ⟨commandWord_eq_or 0x04 j,
    fun hj hf => exec_of_answer (Context.answer_readDigest_stateByte hf hj),
    fun hj hf => exec_of_answer (Context.answer_readDigest_of_ne hf hj), fun w hop himm => ?_⟩⟩
  · have hne : s.ctx.fsm ≠ .absorbing := by rw [hf]; decide
    obtain hc | ⟨hin, -⟩ | ⟨hin, -⟩ | ⟨habs, -⟩ | ⟨habs, -⟩ := step_context_cases h
    · exact .inl hc
    · exact .inr (.inr hin)
    · exact .inr (.inl hin)
    · exact absurd habs hne
    · exact absurd habs hne
  · obtain ⟨why, hd⟩ := (illegal_iff w).1 (.inr (.inl ⟨hop, himm⟩))
    exact step_present_of_illegal s hd

/-- Settles O47: selector 0 reads the FSM code and selector 1 CURSOR. -/
theorem readStatusReturnsTheSelectedField : Obligations.ReadStatusReturnsTheSelectedField := by
  refine ⟨commandWord_eq_or 0x05, fun s => ?_⟩
  have hfsm : exec (.readStatus 0) s = .next { s with response := some ⟨.ok, s.ctx.fsm.code.setWidth 8⟩ } :=
    exec_of_answer (s.ctx.answer_readStatus (by decide))
  refine ⟨fun hf => ?_, fun hf => ?_, fun hf => ?_, exec_of_answer (s.ctx.answer_readStatus (by decide)),
    fun w hop himm => ?_⟩
  · rw [hfsm, hf]; rfl
  · rw [hfsm, hf]; rfl
  · rw [hfsm, hf]; rfl
  · obtain ⟨why, hd⟩ := (illegal_iff w).1 (.inr (.inr (.inl ⟨hop, himm⟩)))
    exact step_present_of_illegal s hd

/-- Settles O48, row by row of R80. -/
theorem wholeStepIsTotal : Obligations.WholeStepIsTotal := by
  intro s w
  cases hd : decode w with
  | illegal why => exact step_present_of_illegal s hd
  | command i =>
    have hwf := wellFormed_of_decode hd
    rw [step_present_eq_exec s hd]
    cases i with
    | init => exact exec_of_answer rfl
    | updateByte b =>
      dsimp only
      split_ifs with hf
      · exact exec_of_answer (Context.answer_updateByte_of_ne hf b)
      · exact exec_of_answer (Context.answer_updateByte (not_not.1 hf) b)
    | finalize =>
      dsimp only
      split_ifs with hf
      · exact exec_of_answer (Context.answer_finalize_of_ne hf)
      · exact exec_of_answer (Context.answer_finalize (not_not.1 hf))
    | readDigest j =>
      have hj : j.toNat < 32 := of_decide_eq_true hwf
      have hindex : Fin.ofNat 200 j.toNat = ⟨j.toNat, by omega⟩ := Fin.ext (Nat.mod_eq_of_lt (by omega))
      dsimp only
      split_ifs with hf
      · exact exec_of_answer (Context.answer_readDigest_of_ne hf hj)
      · rw [hindex]
        exact exec_of_answer (Context.answer_readDigest_stateByte (not_not.1 hf) hj)
    | readStatus sel => exact exec_of_answer (s.ctx.answer_readStatus (of_decide_eq_true hwf))

/-- Settles O49, cell by cell of R81's table. -/
theorem acceptanceTable : Obligations.AcceptanceTable := by
  intro s w
  refine ⟨_, _, step_present s w, rfl, fun hd => ?_, ?_⟩
  · rw [Context.answerWord_of_decode _ hd]
    rfl
  · cases hd : decode w with
    | illegal why => rw [Context.answerWord_of_illegal hd]
    | command i =>
      have hwf := wellFormed_of_decode hd
      rw [Context.answerWord_of_decode _ hd]
      cases i with
      | init => rfl
      | updateByte b => cases hf : s.ctx.fsm <;> simp [Context.answer, hf]
      | finalize => cases hf : s.ctx.fsm <;> simp [Context.answer, hf]
      | readDigest j =>
        have hindex : digestIndex j = some ⟨j.toNat, of_decide_eq_true hwf⟩ := dif_pos _
        cases hf : s.ctx.fsm <;> simp [Context.answer, hindex, hf]
      | readStatus sel => rw [s.ctx.answer_readStatus (of_decide_eq_true hwf)]

end Sys2Proof.Machine
end

section
/-! PROOFS. The host operations (R82 to R84): a loop ends at its first command that is not answered OK, and the
KECCAK256 expansion runs to its end. -/

namespace Sys2Proof.Machine

/-! ## UPDATE and DIGEST -/

theorem Context.fsmByte_eq_one_iff (c : Context) : c.fsmByte = 1 ↔ c.fsm = .absorbing := by
  unfold fsmByte
  cases c.fsm <;> decide

/-- UPDATE of no bytes reads the FSM code alone (R82). -/
theorem hostUpdate_nil (h : Session) :
    hostUpdate [] h = .next (⟨h.engine.afterWord (encode (.readStatus 0)), h.issued ++ [encode (.readStatus 0)],
      h.inputRead⟩, if h.engine.ctx.fsm = .absorbing then .done () else .raised .stateError) := by
  have hans := h.engine.ctx.answerWord_readStatus (sel := 0) (field := .fsm) rfl
  simp only [hostUpdate, issue_eq, bindOutcome, hans, Context.statusByte, Context.fsmByte_eq_one_iff]
  split_ifs <;> rfl

/-- Out of ABSORBING, the word of UPDATE_BYTE is a StateError (R90). -/
theorem Context.answerWord_updateByte_of_ne {c : Context} (hf : c.fsm ≠ .absorbing) (b : Byte) :
    c.answerWord (encode (.updateByte b)) = (c, ⟨.errState, 0⟩) := by
  rw [answerWord_encode c rfl, answer_updateByte_of_ne hf]

/-- Out of ABSORBING, UPDATE ends at its first byte (R82). -/
theorem hostUpdate_cons_of_ne (b : Byte) (data : List Byte) {h : Session} (hf : h.engine.ctx.fsm ≠ .absorbing) :
    hostUpdate (b :: data) h = .next (⟨h.engine.afterWord (encode (.updateByte b)),
      h.issued ++ [encode (.updateByte b)], h.inputRead⟩, .raised .stateError) := by
  simp only [hostUpdate, feedBytes, issue_eq, bindOutcome, Context.answerWord_updateByte_of_ne hf, reduceCtorEq,
    if_false]

/-- Out of FINALIZED, the word of READ_DIGEST is a StateError (R90). -/
theorem Context.answerWord_readDigest_of_ne {c : Context} (hf : c.fsm ≠ .finalized) {j : Byte} (hj : j < 32) :
    c.answerWord (encode (.readDigest j)) = (c, ⟨.errState, 0⟩) := by
  have hwf : (Instr.readDigest j).wellFormed := decide_eq_true hj
  rw [answerWord_encode c hwf, answer_readDigest_of_ne hf hj]

/-- Out of FINALIZED, DIGEST ends at its first index (R83). -/
theorem hostDigest_of_ne {h : Session} (hf : h.engine.ctx.fsm ≠ .finalized) :
    hostDigest h = .next (⟨h.engine.afterWord (encode (.readDigest 0)), h.issued ++ [encode (.readDigest 0)],
      h.inputRead⟩, .raised .stateError) := by
  have hindices : digestIndices = 0 :: digestIndices.tail := rfl
  have hans := Context.answerWord_readDigest_of_ne hf (j := 0) (by decide)
  rw [hostDigest, hindices]
  simp only [readDigestBytes, issue_eq, bindOutcome, hans, reduceCtorEq, if_false]

/-- DIGEST in FINALIZED issues no INIT, and so leaves the context (R83). -/
theorem State.afterWords_digestIndices_ctx {s : State} (hf : s.ctx.fsm = .finalized) :
    (s.afterWords (digestIndices.map fun j => encode (.readDigest j))).ctx = s.ctx := by
  refine afterWords_ctx_of_finalized _ hf fun w hw => ?_
  obtain ⟨j, hj, rfl⟩ := List.mem_map.1 hw
  have hwf : (Instr.readDigest j).wellFormed := decide_eq_true (lt_of_mem_digestIndices hj)
  rw [decode_encode hwf]
  nofun

/-! ## KECCAK256 -/

theorem bindOutcome_next {α β : Type} (a : α) (k : α → Host.Outcome β Fault Refusal) :
    bindOutcome (.next a) k = k a := rfl

theorem hashProgram_length (M : List Byte) : (hashProgram M).length = M.length + 34 := by
  simp [hashProgram, digestIndices]

/-- The bytes of a slice are those at its indices. -/
theorem range'_map_getElem? {input : List Byte} {start length : Nat} (h : start + length ≤ input.length) :
    (List.range' start length).map (input[·]?) = ((input.drop start).take length).map some := by
  refine List.ext_getElem (by simp; omega) fun k hk hk' => ?_
  have hlt : k < length := by simpa using hk
  simp [List.getElem?_eq_getElem (show start + k < input.length by omega)]

/-- The loop of KECCAK256 in ABSORBING reads the bytes `M` at its indices and issues each (R84). -/
theorem feedInput_absorbing {input : List Byte} {ks : List Nat} {M : List Byte} {h : Session}
    (hf : h.engine.ctx.fsm = .absorbing) (hM : ks.map (input[·]?) = M.map some) :
    feedInput input ks h = .next ⟨h.engine.afterWords (M.map fun b => encode (.updateByte b)),
      h.issued ++ M.map (fun b => encode (.updateByte b)), h.inputRead ++ ks⟩ := by
  induction ks generalizing M h with
  | nil =>
    obtain rfl : M = [] := by simpa using hM.symm
    simp [feedInput]
  | cons k ks ih =>
    obtain ⟨b, M, rfl, hb, hM⟩ := List.map_eq_cons_iff.1 hM.symm
    have hans := Context.answerWord_updateByte hf b
    have hfsm : (h.engine.afterWord (encode (.updateByte b))).ctx.fsm = .absorbing := by simp [hans, hf]
    have hissue := issueOk_eq (h := ⟨h.engine, h.issued, h.inputRead ++ [k]⟩) (congrArg (·.2.code) hans)
    simp only [feedInput, readInput, ← hb, bindOutcome, hissue]
    rw [ih hfsm hM.symm]
    simp

/-- In range, KECCAK256 issues the command sequence of R69 for the slice and returns its digest (R84). -/
theorem hostKeccak256_of_le {input : List Byte} {start length : Nat} (h : Session)
    (hrange : start + length ≤ input.length) :
    hostKeccak256 input start length h =
      .next (⟨h.engine.afterWords (hashProgram ((input.drop start).take length)),
        h.issued ++ hashProgram ((input.drop start).take length), h.inputRead ++ List.range' start length⟩,
        .done (keccak256 ((input.drop start).take length)).toList) := by
  have hM := range'_map_getElem? hrange
  generalize (input.drop start).take length = M at hM ⊢
  have hfinal : ((h.engine.afterWord (encode .init)).afterWords (M.map fun b => encode (.updateByte b))).ctx.answerWord
      (encode .finalize) = ((Ideal.finalized M).context, ⟨.ok, 0⟩) := by
    rw [← State.afterWords_cons, State.afterWords_message]
    exact Context.answerWord_finalize rfl
  rw [hostKeccak256, if_neg (Nat.not_lt.2 hrange), issueOk_eq (by rw [Context.answerWord_init]), bindOutcome_next,
    feedInput_absorbing rfl hM, bindOutcome_next, issueOk_eq (by rw [hfinal]), bindOutcome_next,
    hostDigest_finalized _ (by rw [State.afterWord_ctx, hfinal]; rfl), bindOutcome_next]
  simp only [State.afterWord_ctx, hfinal, hashProgram, State.afterWords_append, State.afterWords_cons,
    List.append_assoc, List.cons_append, List.nil_append]
  rfl

theorem hostKeccak256_of_lt {input : List Byte} {start length : Nat} (h : Session)
    (hrange : input.length < start + length) :
    hostKeccak256 input start length h = .next (h, .raised .invalidArgument) := if_pos hrange

/-- In the KECCAK256 expansion a response other than OK is a fault (R84). -/
theorem issueOk_of_not_ok {w : CommandWord} {h : Session} {p : Session × Response} (hp : issue w h = .next p)
    (hcode : p.2.code ≠ .ok) : issueOk w h = .fault .hostProtocol := by
  rw [issueOk, hp]
  exact if_neg hcode

end Sys2Proof.Machine
end

section
/-! PROOFS. The obligations of 42_commands.md about the host operations. -/

namespace Sys2Proof.Machine

/-- Settles O50: UPDATE's loop runs through in ABSORBING and ends at its first byte elsewhere. -/
theorem hostUpdateIsAllOrNothing : Obligations.HostUpdateIsAllOrNothing := by
  intro data h
  cases data with
  | nil =>
    have hans := h.engine.ctx.answerWord_readStatus (sel := 0) (field := .fsm) rfl
    exact ⟨absurd rfl, absurd rfl, fun _ => ⟨_, hostUpdate_nil h, congrArg Prod.fst hans, rfl⟩⟩
  | cons b data =>
    refine ⟨fun _ hf => ?_, fun _ hf => ?_, nofun⟩
    · exact ⟨_, feedBytes_absorbing (b :: data) h hf, State.afterWords_updates (b :: data) _ hf,
        State.afterWords_inbox .., rfl⟩
    · exact ⟨_, hostUpdate_cons_of_ne b data hf,
        congrArg Prod.fst (Context.answerWord_updateByte_of_ne hf b), rfl⟩

/-- Settles O51: DIGEST's loop runs through in FINALIZED and ends at index 0 elsewhere. -/
theorem hostDigestReadsAllBytes : Obligations.HostDigestReadsAllBytes := by
  refine fun h => ⟨fun hf => ?_, fun hf => ?_⟩
  · exact ⟨_, hostDigest_finalized h hf, State.afterWords_digestIndices_ctx hf, rfl⟩
  · exact ⟨_, hostDigest_of_ne hf, congrArg Prod.fst (Context.answerWord_readDigest_of_ne hf (by decide)), rfl⟩

/-- Settles O52: in range the expansion is the command sequence of the slice; the width of the indices plays no part. -/
theorem hostKeccak256HashesTheSlice : Obligations.HostKeccak256HashesTheSlice := by
  refine ⟨fun input start length h hrange => ?_, fun input start length h => hostKeccak256_of_lt h,
    fun w h p => issueOk_of_not_ok⟩
  refine ⟨_, hostKeccak256_of_le h hrange, rfl, ?_, rfl, ?_⟩
  · have hslice : ((input.drop start).take length).length = length := by
      rw [List.length_take, List.length_drop]
      omega
    rw [List.length_append, hashProgram_length, hslice]
  · rintro w i n rfl rfl
    rfl

end Sys2Proof.Machine
end

section
/-! PROOFS. What is rejected (R90 to R92, R94), and what a rejection leaves (R93). -/

namespace Sys2Proof.Machine

/-! ## Commands -/

/-- R90's list: the commands that the lifecycle does not allow in a state. -/
def Fsm.Bars (f : Fsm) : Instr → Prop
  | .init | .readStatus _ => False
  | .updateByte _ | .finalize => f ≠ .absorbing
  | .readDigest _ => f ≠ .finalized

/-- A barred command leaves the context and answers StateError without data (R90, R93). -/
theorem Context.answer_of_bars {c : Context} {i : Instr} (hwf : i.wellFormed) (hbar : c.fsm.Bars i) :
    c.answer i = (c, ⟨.errState, 0⟩) := by
  cases i with
  | init => exact hbar.elim
  | updateByte b => exact answer_updateByte_of_ne hbar b
  | finalize => exact answer_finalize_of_ne hbar
  | readDigest j => exact answer_readDigest_of_ne hbar (of_decide_eq_true hwf)
  | readStatus sel => exact hbar.elim

theorem Context.answer_code_of_not_bars {c : Context} {i : Instr} (hwf : i.wellFormed) (hbar : ¬ c.fsm.Bars i) :
    (c.answer i).2.code = .ok := by
  cases i with
  | init => rfl
  | updateByte b => rw [answer_updateByte (not_not.1 hbar)]
  | finalize => rw [answer_finalize (not_not.1 hbar)]
  | readDigest j => rw [answer_readDigest (not_not.1 hbar) (of_decide_eq_true hwf)]
  | readStatus sel => rw [c.answer_readStatus (of_decide_eq_true hwf)]

theorem step_present_of_bars {s : State} {i : Instr} (hwf : i.wellFormed) (hbar : s.ctx.fsm.Bars i) :
    step (s.present (encode i)) = .next { s with response := some ⟨.errState, 0⟩ } := by
  rw [step_present_eq_exec s (decode_encode hwf), exec_of_answer (Context.answer_of_bars hwf hbar)]

/-- Legality is decided from the word, and the lifecycle of a legal word after it (R94). -/
theorem Context.answerWord_code_cases (c : Context) (w : CommandWord) :
    ((∃ why, decode w = .illegal why) ∧ (c.answerWord w).2.code = .errIllegal) ∨
    (∃ i, decode w = .command i ∧ c.fsm.Bars i ∧ (c.answerWord w).2.code = .errState) ∨
    (∃ i, decode w = .command i ∧ ¬ c.fsm.Bars i ∧ (c.answerWord w).2.code = .ok) := by
  cases hd : decode w with
  | illegal why => exact .inl ⟨⟨why, rfl⟩, by rw [answerWord_of_illegal hd]⟩
  | command i =>
    have hwf := wellFormed_of_decode hd
    rw [c.answerWord_of_decode hd]
    by_cases hbar : c.fsm.Bars i
    · exact .inr (.inl ⟨i, rfl, hbar, by rw [answer_of_bars hwf hbar]⟩)
    · exact .inr (.inr ⟨i, rfl, hbar, answer_code_of_not_bars hwf hbar⟩)

theorem Context.answerWord_code_eq_errIllegal_iff (c : Context) (w : CommandWord) :
    (c.answerWord w).2.code = .errIllegal ↔ ∃ why, decode w = .illegal why := by
  obtain ⟨hd, hcode⟩ | ⟨i, hd, -, hcode⟩ | ⟨i, hd, -, hcode⟩ := c.answerWord_code_cases w
  · simp [hd, hcode]
  · simp [hd, hcode]
  · simp [hd, hcode]

theorem Context.answerWord_code_eq_errState_iff (c : Context) (w : CommandWord) :
    (c.answerWord w).2.code = .errState ↔ ∃ i, decode w = .command i ∧ c.fsm.Bars i := by
  obtain ⟨⟨why, hd⟩, hcode⟩ | ⟨i, hd, hbar, hcode⟩ | ⟨i, hd, hbar, hcode⟩ := c.answerWord_code_cases w
  · simp [hd, hcode]
  · simp [hd, hcode, hbar]
  · simp [hd, hcode, hbar]

/-- R90's list written out. -/
theorem Fsm.exists_bars_iff (f : Fsm) (w : CommandWord) :
    (∃ i, decode w = .command i ∧ f.Bars i) ↔
      (∃ b, decode w = .command (.updateByte b) ∧ f ≠ .absorbing) ∨
      (decode w = .command .finalize ∧ f ≠ .absorbing) ∨
      ∃ j, decode w = .command (.readDigest j) ∧ f ≠ .finalized := by
  constructor
  · rintro ⟨i, hd, hbar⟩
    cases i with
    | init => exact hbar.elim
    | updateByte b => exact .inl ⟨b, hd, hbar⟩
    | finalize => exact .inr (.inl ⟨hd, hbar⟩)
    | readDigest j => exact .inr (.inr ⟨j, hd, hbar⟩)
    | readStatus sel => exact hbar.elim
  · rintro (⟨b, hd, hf⟩ | ⟨hd, hf⟩ | ⟨j, hd, hf⟩)
    · exact ⟨_, hd, hf⟩
    · exact ⟨_, hd, hf⟩
    · exact ⟨_, hd, hf⟩

/-- The step on a presented word leaves the engine after that word. -/
theorem eq_afterWord_of_step {s t : State} {w : CommandWord} (h : step (s.present w) = .next t) :
    t = s.afterWord w := by
  rw [step_present] at h
  cases h
  rfl

/-- The old response at the port plays no part in the next step. -/
theorem step_present_congr {s t : State} (hctx : t.ctx = s.ctx) (hinbox : t.inbox = s.inbox) (v : CommandWord) :
    step (t.present v) = step (s.present v) := by
  rw [step_present, step_present, hctx, hinbox]

/-! ## Host operations -/

theorem hostUpdate_of_ne (data : List Byte) {h : Session} (hf : h.engine.ctx.fsm ≠ .absorbing) :
    ∃ h' : Session, hostUpdate data h = .next (h', .raised .stateError) ∧ h'.engine.ctx = h.engine.ctx := by
  cases data with
  | nil =>
    have hans := h.engine.ctx.answerWord_readStatus (sel := 0) (field := .fsm) rfl
    have hraised := hostUpdate_nil h
    rw [if_neg hf] at hraised
    exact ⟨_, hraised, congrArg Prod.fst hans⟩
  | cons b data =>
    exact ⟨_, hostUpdate_cons_of_ne b data hf, congrArg Prod.fst (Context.answerWord_updateByte_of_ne hf b)⟩

/-- UPDATE raises an error only where its first command was rejected, out of ABSORBING. -/
theorem ctx_eq_of_hostUpdate_raised {data : List Byte} {h h' : Session} {e : HostError}
    (hraised : hostUpdate data h = .next (h', .raised e)) : h'.engine.ctx = h.engine.ctx := by
  by_cases hf : h.engine.ctx.fsm = .absorbing
  · obtain ⟨g, hdone, -⟩ := hostUpdate_absorbing data hf
    cases hdone.symm.trans hraised
  · obtain ⟨g, hg, hctx⟩ := hostUpdate_of_ne data hf
    cases hg.symm.trans hraised
    exact hctx

/-- DIGEST raises an error only where its first command was rejected, out of FINALIZED. -/
theorem ctx_eq_of_hostDigest_raised {h h' : Session} {e : HostError}
    (hraised : hostDigest h = .next (h', .raised e)) : h'.engine.ctx = h.engine.ctx := by
  by_cases hf : h.engine.ctx.fsm = .finalized
  · cases (hostDigest_finalized h hf).symm.trans hraised
  · cases (hostDigest_of_ne hf).symm.trans hraised
    exact congrArg Prod.fst (Context.answerWord_readDigest_of_ne hf (by decide))

/-- KECCAK256 raises an error by its range check alone, before it does anything (R92). -/
theorem eq_of_hostKeccak256_raised {input : List Byte} {start length : Nat} {h h' : Session} {e : HostError}
    (hraised : hostKeccak256 input start length h = .next (h', .raised e)) : h' = h ∧ e = .invalidArgument := by
  by_cases hrange : start + length ≤ input.length
  · cases (hostKeccak256_of_le h hrange).symm.trans hraised
  · cases (hostKeccak256_of_lt h (Nat.not_le.1 hrange)).symm.trans hraised
    exact ⟨rfl, rfl⟩

end Sys2Proof.Machine
end

section
/-! PROOFS. The obligations of 60_exceptions.md about errors. -/

namespace Sys2Proof.Machine

/-- Settles O53: the range check comes first, over the naturals that the host's indices stand for. -/
theorem outOfRangeInputIsInvalidArgument : Obligations.OutOfRangeInputIsInvalidArgument := fun _ _ _ h =>
  ⟨hostKeccak256_of_lt h, fun _ _ _ => hostKeccak256_of_lt h⟩

/-- Settles O54: the lifecycle bars the three commands there, and each host operation ends at the first of them. -/
theorem stateErrorIsRaisedByTheLifecycle : Obligations.StateErrorIsRaisedByTheLifecycle := by
  refine ⟨fun s b hf => step_present_of_bars (i := .updateByte b) rfl hf,
    fun s hf => step_present_of_bars (i := .finalize) rfl hf,
    fun s j hj hf => step_present_of_bars (i := .readDigest j) (decide_eq_true hj) hf, fun data h hf => ?_,
    fun h hf => ⟨_, hostDigest_of_ne hf⟩⟩
  obtain ⟨h', hraised, -⟩ := hostUpdate_of_ne data hf
  exact ⟨h', hraised⟩

/-- Settles O55: a rejected word changes the response port alone, which no next step reads. -/
theorem rejectionLeavesTheContextUnchanged : Obligations.RejectionLeavesTheContextUnchanged := by
  refine ⟨fun s t w r hstep hresp hne => ?_, fun _ _ _ _ => ctx_eq_of_hostUpdate_raised,
    fun _ _ _ => ctx_eq_of_hostDigest_raised, fun _ _ _ _ _ _ h => (eq_of_hostKeccak256_raised h).1⟩
  obtain rfl := eq_afterWord_of_step hstep
  obtain rfl : (s.ctx.answerWord w).2 = r := Option.some.inj hresp
  have hctx : (s.afterWord w).ctx = s.ctx := Context.answerWord_fst_of_not_ok hne
  have hdata : (s.ctx.answerWord w).2.data = 0 :=
    (s.ctx.answerWord_data_cases w).resolve_right fun ⟨hok, _⟩ => hne hok
  exact ⟨hctx, rfl, hdata, step_present_congr hctx rfl⟩

/-- Settles O56: a range error comes before any command, and a word's legality before its lifecycle check. -/
theorem errorsAreReportedInPriorityOrder : Obligations.ErrorsAreReportedInPriorityOrder := by
  refine ⟨fun input start length h h' e hraised => ?_, fun s t w r hstep hresp => ?_⟩
  · obtain ⟨rfl, rfl⟩ := eq_of_hostKeccak256_raised hraised
    exact ⟨rfl, rfl⟩
  · obtain rfl := eq_afterWord_of_step hstep
    obtain rfl : (s.ctx.answerWord w).2 = r := Option.some.inj hresp
    rw [← Fsm.exists_bars_iff]
    exact ⟨s.ctx.answerWord_code_eq_errIllegal_iff w, s.ctx.answerWord_code_eq_errState_iff w⟩

end Sys2Proof.Machine
end

section
/-! PROOFS. Reset next to INIT, and what the lifecycle bars in CREATED (R106). -/

namespace Sys2Proof.Machine

/-- A reset event leaves the context of R28 and no response (R105). -/
theorem step_of_reset {s : State} {rest : List HostEvent} (h : s.inbox = .reset :: rest) :
    step s = .next ⟨.reset, none, rest⟩ := by
  rw [step, acceptEvent, h]
  rfl

/-- INIT's context is the reset context but for FSM (R106). -/
theorem Context.fresh_eq_reset_with_fsm : Context.fresh = { Context.reset with fsm := .absorbing } := rfl

/-- In CREATED the lifecycle lets only INIT and READ_STATUS through. -/
theorem Fsm.not_created_bars_iff (i : Instr) :
    ¬ Fsm.created.Bars i ↔ i = .init ∨ ∃ sel, i = .readStatus sel := by
  cases i <;> simp [Bars]

/-- In CREATED a word escapes ERR_STATE by being INIT, READ_STATUS or illegal. -/
theorem Context.answerWord_code_ne_errState_iff_of_created {c : Context} (hf : c.fsm = .created) (w : CommandWord) :
    (c.answerWord w).2.code ≠ .errState ↔
      decode w = .command .init ∨ (∃ sel, decode w = .command (.readStatus sel)) ∨ ∃ why, decode w = .illegal why := by
  rw [Ne, answerWord_code_eq_errState_iff, hf]
  cases hd : decode w with
  | illegal why => simp
  | command i => simpa using Fsm.not_created_bars_iff i

end Sys2Proof.Machine
end

section
/-! PROOFS. The obligations of 70_reset_and_hazards.md. -/

namespace Sys2Proof.Machine

/-- Settles O58: reset and INIT each leave one fixed context, and in CREATED the lifecycle bars every legal word but
INIT's and READ_STATUS's. -/
theorem resetAndInitDifferInFsmAlone : Obligations.ResetAndInitDifferInFsmAlone := by
  refine ⟨fun s t u rest hreset hinit => ?_, fun s t w r hf hstep hresp => ?_⟩
  · rw [step_of_reset rfl] at hreset
    rw [step_of_command rfl] at hinit
    cases hreset
    cases hinit
    exact ⟨rfl, rfl, Context.fresh_eq_reset_with_fsm⟩
  · obtain rfl := eq_afterWord_of_step hstep
    obtain rfl : (s.ctx.answerWord w).2 = r := Option.some.inj hresp
    exact Context.answerWord_code_ne_errState_iff_of_created hf w

/-- Settles O59: every step and every command has a next state, and a complete hash is INIT, one UPDATE_BYTE per byte,
FINALIZE and 32 READ_DIGESTs. -/
theorem everyCommandTerminates : Obligations.EveryCommandTerminates :=
  ⟨neverStops, fun i s => ⟨_, exec_eq_answer i s⟩, hashProgram_length⟩

end Sys2Proof.Machine
end

section
/-! PROOFS. Assembly text (30_encoding.md R51): what an operand's digits are worth, how a line falls into its parts,
and which command the parts name. -/

namespace Sys2Proof

/-! ## Operands -/

/-- A hexadecimal digit is read back, in upper case. -/
theorem hexDigit_hexChar : ∀ n < 16, hexDigit (hexChar n) = some n := by decide

/-- A byte's two hexadecimal digits are read back. -/
theorem parseByte_hexByte (b : Byte) : parseByte (hexByte b) = some b := by
  have hlt : b.toNat < 256 := b.isLt
  have hhi : b.toNat / 16 < 16 := by omega
  have hlo : b.toNat % 16 < 16 := by omega
  have hval : 16 * (b.toNat / 16) + b.toNat % 16 = b.toNat := Nat.div_add_mod _ _
  simp [parseByte, hexByte, digitsValue, hexDigit_hexChar _ hhi, hexDigit_hexChar _ hlo, hhi, hlo, hval, hlt]

theorem hexDigit_of_isDigit {c : Char} (h : c.isDigit) : hexDigit c = some (c.toNat - 48) ∧ c.toNat - 48 < 10 := by
  rw [Char.isDigit_iff_toNat] at h
  have hrange : 48 ≤ c.toNat ∧ c.toNat ≤ 57 := h
  exact ⟨if_pos hrange, by omega⟩

/-- Decimal digits are worth what the library says. -/
theorem digitsValue_ten_eq_ofDigitChars {t : List Char} (h : ∀ c ∈ t, c.isDigit) (v : Nat) :
    digitsValue 10 v t = some (Nat.ofDigitChars 10 t v) := by
  induction t generalizing v with
  | nil => rw [digitsValue, Nat.ofDigitChars_nil]
  | cons c rest ih =>
    obtain ⟨hc, hrest⟩ := List.forall_mem_cons.1 h
    obtain ⟨hdigit, hlt⟩ := hexDigit_of_isDigit hc
    simp only [digitsValue, hdigit, if_pos hlt, ih hrest, Nat.ofDigitChars_cons]
    rfl

/-- An operand of decimal digits is not read as hexadecimal: its second character is not the `x` of `0x`. -/
theorem parseByte_of_isDigit {t : List Char} (hne : t ≠ []) (h : ∀ c ∈ t, c.isDigit) {b : Byte}
    (hval : Nat.ofDigitChars 10 t 0 = b.toNat) : parseByte t = some b := by
  have hdigits : digitsValue 10 0 t = some b.toNat := hval ▸ digitsValue_ten_eq_ofDigitChars h 0
  obtain ⟨d, rest, rfl⟩ := List.exists_cons_of_ne_nil hne
  have hdecimal : ∀ e s, d = '0' → rest ≠ 'x' :: e :: s := by
    rintro e s - rfl
    exact absurd (h 'x' (by simp)) (by decide)
  simp [parseByte, hdigits, b.isLt]

/-- A byte's decimal digits are read back. -/
theorem parseByte_toDigits (b : Byte) : parseByte (Nat.toDigits 10 b.toNat) = some b :=
  parseByte_of_isDigit Nat.toDigits_ne_nil (fun _ => Nat.isDigit_of_mem_toDigits (by decide) (by decide))
    Nat.ofDigitChars_ten_toDigits

/-! ## The parts of a line -/

/-- A character that a part of a line may hold: no blank, which ends the part, and no `;`, which ends the line. -/
def isPartChar (c : Char) : Bool := !isBlank c && c != ';'

/-- A part of a line is not empty. -/
def IsPart (t : List Char) : Prop := t ≠ [] ∧ ∀ c ∈ t, isPartChar c

theorem Instr.isPart_mnemonic (i : Instr) : IsPart i.mnemonic := by
  have hchars : i.mnemonic.all isPartChar = true := by cases i <;> rfl
  exact ⟨by cases i <;> exact List.cons_ne_nil _ _, List.all_eq_true.1 hchars⟩

theorem isPartChar_of_hexDigit {c : Char} {d : Nat} (h : hexDigit c = some d) : isPartChar c := by
  suffices hne : (c ≠ ' ' ∧ c ≠ '\t' ∧ c ≠ '\r') ∧ c ≠ ';' by simpa [isPartChar, isBlank, and_assoc] using hne
  refine ⟨⟨?_, ?_, ?_⟩, ?_⟩ <;> rintro rfl <;> cases h

theorem isPartChar_of_digitsValue {base v n : Nat} {t : List Char} (h : digitsValue base v t = some n) :
    ∀ c ∈ t, isPartChar c := by
  induction t generalizing v with
  | nil => simp
  | cons c rest ih =>
    unfold digitsValue at h
    split at h
    next d hd =>
      split_ifs at h
      exact List.forall_mem_cons.2 ⟨isPartChar_of_hexDigit hd, ih h⟩
    next => cases h

/-- An operand that is read is one part of its line. -/
theorem isPart_of_parseByte {t : List Char} {b : Byte} (h : parseByte t = some b) : IsPart t := by
  unfold parseByte at h
  split at h
  next n hn =>
    split at hn
    next d rest =>
      have hlead : ['0', 'x'].all isPartChar = true := rfl
      exact ⟨List.cons_ne_nil _ _, List.forall_mem_append.2 ⟨List.all_eq_true.1 hlead, isPartChar_of_digitsValue hn⟩⟩
    next d rest => exact ⟨List.cons_ne_nil _ _, isPartChar_of_digitsValue hn⟩
    next => cases hn
  next => cases h

theorem IsPart.isBlank_eq_false {t : List Char} (ht : IsPart t) : ∀ c ∈ t, isBlank c = false := fun c hc => by
  have hchar := ht.2 c hc
  simp_all [isPartChar]

theorem IsPart.semicolon_notMem {t : List Char} (ht : IsPart t) : ';' ∉ t := fun hc => by
  have hchar := ht.2 _ hc
  cases hchar

theorem splitBlanks_append {t : List Char} (ht : ∀ c ∈ t, isBlank c = false) (acc rest : List Char) :
    splitBlanks acc (t ++ rest) = splitBlanks (t.reverse ++ acc) rest := by
  induction t generalizing acc with
  | nil => rfl
  | cons c t ih =>
    obtain ⟨hc, ht⟩ := List.forall_mem_cons.1 ht
    simp [splitBlanks, hc, ih ht]

theorem splitBlanks_part {t : List Char} (ht : IsPart t) : splitBlanks [] t = [t] := by
  simpa [splitBlanks, ht.1] using splitBlanks_append ht.isBlank_eq_false [] []

theorem splitBlanks_part_blank {t : List Char} (ht : IsPart t) (rest : List Char) :
    splitBlanks [] (t ++ ' ' :: rest) = t :: splitBlanks [] rest := by
  rw [splitBlanks_append ht.isBlank_eq_false]
  simp [splitBlanks, ht.1, isBlank]

/-- A blank at the end of a line is no part of it. -/
theorem splitBlanks_append_blank (acc l : List Char) : splitBlanks acc (l ++ [' ']) = splitBlanks acc l := by
  induction l generalizing acc with
  | nil => simp [splitBlanks, isBlank]
  | cons c l ih => simp only [List.cons_append, splitBlanks, ih]

/-! ## Lines -/

theorem stripComment_append_comment {l : List Char} (hl : ';' ∉ l) (comment : List Char) :
    stripComment (l ++ ';' :: comment) = l := by
  unfold stripComment
  rw [List.takeWhile_append_of_pos fun c hc => bne_iff_ne.2 (ne_of_mem_of_not_mem hc hl)]
  simp

theorem stripComment_of_notMem {l : List Char} (hl : ';' ∉ l) : stripComment l = l :=
  List.takeWhile_eq_self_iff.2 fun _ hc => bne_iff_ne.2 (ne_of_mem_of_not_mem hc hl)

/-- A comment after a line changes nothing. -/
theorem assembleLine_comment {l : List Char} (hl : ';' ∉ l) (comment : List Char) :
    assembleLine (l ++ ' ' :: ';' :: comment) = assembleLine l := by
  have hcomment : stripComment (l ++ ' ' :: ';' :: comment) = l ++ [' '] := by
    simpa using stripComment_append_comment (l := l ++ [' ']) (by simpa using hl) comment
  simp only [assembleLine, hcomment, stripComment_of_notMem hl, splitBlanks_append_blank]

theorem assembleLine_of_parseCommand {l : List Char} {i : Instr} (hl : ';' ∉ l)
    (hparse : parseCommand (splitBlanks [] l) = some i) : assembleLine l = .word (encode i) := by
  unfold assembleLine
  rw [stripComment_of_notMem hl]
  split
  next hparts => rw [hparts] at hparse; cases hparse
  next => rw [hparse]

/-- The commands whose line has an operand (R51). -/
def Instr.HasOperand : Instr → Prop
  | .updateByte _ | .readDigest _ | .readStatus _ => True
  | .init | .finalize => False

theorem Instr.line_of_hasOperand {i : Instr} (hop : i.HasOperand) :
    i.line = i.mnemonic ++ ' ' :: hexByte i.operand := by
  cases i with
  | init | finalize => exact hop.elim
  | updateByte b => rfl
  | readDigest j => rfl
  | readStatus sel => rfl

theorem Instr.line_of_not_hasOperand {i : Instr} (hop : ¬ i.HasOperand) : i.line = i.mnemonic := by
  cases i with
  | init => rfl
  | finalize => rfl
  | updateByte _ | readDigest _ | readStatus _ => exact absurd trivial hop

theorem parseCommand_mnemonic {i : Instr} (hop : ¬ i.HasOperand) : parseCommand [i.mnemonic] = some i := by
  cases i with
  | init => rfl
  | finalize => rfl
  | updateByte _ | readDigest _ | readStatus _ => exact absurd trivial hop

/-- The mnemonic and any operand text that is read as a command's operand name the command, if it has a word. -/
theorem parseCommand_operand {i : Instr} (hop : i.HasOperand) (hwf : i.wellFormed) {t : List Char}
    (ht : parseByte t = some i.operand) : parseCommand [i.mnemonic, t] = some i := by
  unfold parseCommand
  cases i with
  | init | finalize => exact hop.elim
  | updateByte b => simp only [ht]; rfl
  | readDigest j =>
    simp only [ht, Instr.operand, hwf]
    rfl
  | readStatus sel =>
    simp only [ht, Instr.operand, hwf]
    rfl

theorem semicolon_notMem_operandLine (i : Instr) {t : List Char} (ht : IsPart t) :
    ';' ∉ i.mnemonic ++ ' ' :: t := by
  simp [i.isPart_mnemonic.semicolon_notMem, ht.semicolon_notMem]

/-- A line of a mnemonic and an operand is its command's word, however the operand is written (R51). -/
theorem assembleLine_operand {i : Instr} (hop : i.HasOperand) (hwf : i.wellFormed) {t : List Char}
    (ht : parseByte t = some i.operand) : assembleLine (i.mnemonic ++ ' ' :: t) = .word (encode i) := by
  have hpart := isPart_of_parseByte ht
  refine assembleLine_of_parseCommand (semicolon_notMem_operandLine i hpart) ?_
  rw [splitBlanks_part_blank i.isPart_mnemonic, splitBlanks_part hpart]
  exact parseCommand_operand hop hwf ht

theorem semicolon_notMem_line (i : Instr) : ';' ∉ i.line := by
  by_cases hop : i.HasOperand
  · rw [Instr.line_of_hasOperand hop]
    exact semicolon_notMem_operandLine i (isPart_of_parseByte (parseByte_hexByte _))
  · rw [Instr.line_of_not_hasOperand hop]
    exact i.isPart_mnemonic.semicolon_notMem

theorem assembleLine_line {i : Instr} (hwf : i.wellFormed) : assembleLine i.line = .word (encode i) := by
  by_cases hop : i.HasOperand
  · rw [Instr.line_of_hasOperand hop]
    exact assembleLine_operand hop hwf (parseByte_hexByte _)
  · refine assembleLine_of_parseCommand (semicolon_notMem_line i) ?_
    rw [Instr.line_of_not_hasOperand hop, splitBlanks_part i.isPart_mnemonic]
    exact parseCommand_mnemonic hop

/-- The same with the operand in decimal, behind the mnemonic and its blank (R51). -/
theorem assembleLine_decimal {i : Instr} (hop : i.HasOperand) (hwf : i.wellFormed) {start : List Char}
    (hstart : start = i.mnemonic ++ [' ']) :
    assembleLine (start ++ Nat.toDigits 10 i.operand.toNat) = .word (encode i) := by
  rw [hstart, List.append_assoc]
  exact assembleLine_operand hop hwf (parseByte_toDigits _)

end Sys2Proof
end

section
/-! PROOFS. The obligation of 30_encoding.md about assembly text. -/

namespace Sys2Proof.Machine

/-- Settles O21: a line's parts are its mnemonic and its operand, whose digits are read back as the operand's byte, and
a comment is no part. -/
theorem assemblyLinesGiveTheirWords : Obligations.AssemblyLinesGiveTheirWords := by
  refine ⟨fun i hwf comment => ⟨assembleLine_line hwf, ?_⟩,
    fun b => assembleLine_decimal (i := .updateByte b) trivial rfl rfl,
    fun j hj => assembleLine_decimal (i := .readDigest j) trivial (decide_eq_true hj) rfl,
    fun sel hsel => assembleLine_decimal (i := .readStatus sel) trivial (decide_eq_true hsel) rfl⟩
  rw [assembleLine_comment (semicolon_notMem_line i), assembleLine_line hwf]

end Sys2Proof.Machine
end

section
/-! PROOFS. Two hosts on one engine (20_memory.md R38): what a tagged stream leaves, and what an exclusive owner of the
engine can say of its context. -/

namespace Sys2Proof.Machine

/-- A tagged stream runs as its words do: who issued a word is nothing to the engine (R38). -/
theorem runTagged_eq (trace : List Tagged) (h : Session) :
    runTagged trace h = .next (⟨h.engine.afterWords (trace.map Tagged.word), h.issued ++ trace.map Tagged.word,
      h.inputRead⟩, (trace.map Tagged.host).zip (h.engine.ctx.responses (trace.map Tagged.word))) := by
  induction trace generalizing h with
  | nil => simp [runTagged]
  | cons c trace ih => simp [runTagged, bindOutcome, issue_eq, ih, Context.responses]

theorem exclusiveOwner_concat (trace : List Tagged) (c : Tagged) :
    exclusiveOwner (trace ++ [c]) = ownerAfter (exclusiveOwner trace) c := List.foldl_concat ..

theorem Ideal.after_concat (ws : List CommandWord) (w : CommandWord) :
    Ideal.after (ws ++ [w]) = ((Ideal.after ws).step w).1 := List.foldl_concat ..

theorem State.afterWords_concat (s : State) (ws : List CommandWord) (w : CommandWord) :
    s.afterWords (ws ++ [w]) = (s.afterWords ws).afterWord w := List.foldl_concat ..

/-- A host owns the engine after a command of its own only: its INIT, or any command while it owned it already. -/
theorem ownerAfter_eq_some {owner : Option HostId} {c : Tagged} {h : HostId} (hown : ownerAfter owner c = some h) :
    c.host = h ∧ (decode c.word = .command .init ∨ owner = some h) := by
  unfold ownerAfter at hown
  split_ifs at hown with hinit howner
  · exact ⟨Option.some.inj hown, .inl hinit⟩
  · exact ⟨Option.some.inj (howner.symm.trans hown), .inr hown⟩

theorem wordsOf_concat (trace : List Tagged) (c : Tagged) :
    wordsOf c.host (trace ++ [c]) = wordsOf c.host trace ++ [c.word] := by
  simp [wordsOf]

/-- INIT forgets the message before it (R74). -/
theorem Ideal.step_of_init (a : Ideal) {w : CommandWord} (h : decode w = .command .init) :
    (a.step w).1 = .absorbing [] := by
  simp only [step, h]
  rfl

/-- For an exclusive owner, the message is the one its own words alone give. -/
theorem Ideal.after_eq_after_wordsOf {trace : List Tagged} {h : HostId} (hown : exclusiveOwner trace = some h) :
    Ideal.after (trace.map Tagged.word) = Ideal.after (wordsOf h trace) := by
  induction trace using List.reverseRecOn with
  | nil => cases hown
  | append_singleton trace c ih =>
    rw [exclusiveOwner_concat] at hown
    obtain ⟨rfl, hcase⟩ := ownerAfter_eq_some hown
    rw [List.map_append, List.map_singleton, wordsOf_concat, after_concat, after_concat]
    obtain hinit | howner := hcase
    · rw [step_of_init _ hinit, step_of_init _ hinit]
    · rw [ih howner]

/-- From an exclusive owner's INIT on the engine's context stands for the message, whatever it held before. -/
theorem State.afterWords_ctx_of_exclusiveOwner {trace : List Tagged} {h : HostId}
    (hown : exclusiveOwner trace = some h) (s : State) :
    (s.afterWords (trace.map Tagged.word)).ctx = (Ideal.after (trace.map Tagged.word)).context := by
  induction trace using List.reverseRecOn with
  | nil => cases hown
  | append_singleton trace c ih =>
    rw [exclusiveOwner_concat] at hown
    rw [List.map_append, List.map_singleton, Ideal.after_concat, afterWords_concat, afterWord_ctx]
    obtain ⟨-, hinit | howner⟩ := ownerAfter_eq_some hown
    · rw [Ideal.step_of_init _ hinit, Ideal.context_absorbing_nil, Context.answerWord_of_decode _ hinit]
      rfl
    · rw [ih howner, Ideal.answerWord_context]

/-- What DIGEST reports of a message: its digest once it is finalized, and StateError before (R69, R83). -/
def Ideal.digestResult : Ideal → HostResult (List Byte)
  | .finalized M => .done (keccak256 M).toList
  | .created | .absorbing _ => .raised .stateError

theorem hostDigest_of_ideal {h : Session} {a : Ideal} (hctx : h.engine.ctx = a.context) :
    ∃ g, hostDigest h = .next (g, a.digestResult) := by
  have hfsm : h.engine.ctx.fsm = a.context.fsm := congrArg Context.fsm hctx
  cases a with
  | created => exact ⟨_, hostDigest_of_ne (hfsm ▸ nofun)⟩
  | absorbing M => exact ⟨_, hostDigest_of_ne (hfsm ▸ nofun)⟩
  | finalized M =>
    have hlanes : h.engine.ctx.lanes = absorbMessage M := congrArg Context.lanes hctx
    exact ⟨_, by rw [hostDigest_finalized h hfsm, hlanes]; rfl⟩

/-- An exclusive owner's claim is what DIGEST reports of the message after the stream. -/
theorem claimDigest_of_exclusiveOwner {h : HostId} {trace : List Tagged} (hown : exclusiveOwner trace = some h)
    (s : State) :
    ∃ g, claimDigest h trace s = .next (g, (Ideal.after (trace.map Tagged.word)).digestResult) := by
  rw [claimDigest, if_pos hown, runTagged_eq]
  exact hostDigest_of_ideal (State.afterWords_ctx_of_exclusiveOwner hown s)

end Sys2Proof.Machine
end

section
/-! PROOFS. The obligation of 20_memory.md and 60_exceptions.md about digest claims. -/

namespace Sys2Proof.Machine

/-- Settles O57: a command of another host ends ownership, and an owner's INIT makes the engine's context, and the
message its own words give, depend on nothing before it. -/
theorem digestClaimsNeedExclusiveOwnership : Obligations.DigestClaimsNeedExclusiveOwnership := by
  refine fun h trace s => ⟨fun hown => if_neg hown, fun hown => ?_⟩
  have hwords := Ideal.after_eq_after_wordsOf hown
  refine ⟨hwords, ?_⟩
  obtain ⟨g, hclaim⟩ := claimDigest_of_exclusiveOwner hown s
  rw [← hwords, hclaim]
  cases Ideal.after (trace.map Tagged.word) <;> exact ⟨g, rfl⟩

end Sys2Proof.Machine
end

section
/-! PROOFS. Command terms that no word carries (R46, R47). -/

namespace Sys2Proof.Machine

/-- An operand that the encoding does not admit is IllegalCommand before the lifecycle is looked at (R47, R94). -/
theorem Context.answer_of_not_wellFormed (c : Context) {i : Instr} (hwf : i.wellFormed = false) :
    c.answer i = (c, ⟨.errIllegal, 0⟩) := by
  cases i with
  | init | updateByte _ | finalize => cases hwf
  | readDigest j =>
    have hj : ¬ j.toNat < 32 := of_decide_eq_false hwf
    simp only [answer, digestIndex, dif_neg hj]
  | readStatus sel =>
    have hsel : ¬ sel < 2 := of_decide_eq_false hwf
    have hzero : sel ≠ 0 := by rintro rfl; exact hsel (by decide)
    have hone : sel ≠ 1 := by rintro rfl; exact hsel (by decide)
    simp only [answer, statusSelector, if_neg hzero, if_neg hone]

end Sys2Proof.Machine
end

section
/-! PROOFS. The obligations about the reset state and about terms of no word. -/

namespace Sys2Proof.Machine

/-- Settles O3: the fields of the reset state, and the step that takes a reset event. -/
theorem resetLeavesTheZeroContextInCreated : Obligations.ResetLeavesTheZeroContextInCreated :=
  ⟨rfl, LaneArray.at_zero, fun k => Block.zero_getElem k.val k.isLt, rfl, rfl, rfl, rfl,
    fun _ _ h => ⟨_, step_of_reset h, rfl, rfl⟩⟩

/-- Settles O60: a word decodes to well-formed commands alone, and any other term has an operand that is illegal. -/
theorem termsOfNoWordAreIllegal : Obligations.TermsOfNoWordAreIllegal := by
  refine ⟨fun i hwf w hd => ?_, fun i s hwf => exec_of_answer (s.ctx.answer_of_not_wellFormed hwf)⟩
  rw [wellFormed_of_decode hd] at hwf
  cases hwf

end Sys2Proof.Machine
end
